-- ==== Sys2Proof/Word.lean ====
section
/-! DEFINITION. The word types of the core: every register, cell, operand and immediate is an unsigned 8-bit
value (00_scope.md R7, R10), and a register is one of eight (10_state.md R11). -/

namespace Sys2Proof

/-- An unsigned 8-bit value (00_scope.md R7). -/
abbrev Byte := BitVec 8

/-- The index of a general register, R0 to R7 (10_state.md R11). -/
abbrev RegIdx := Fin 8

end Sys2Proof
end

