-- ==== Sys2Proof/Config.lean ====
section
/-! DEFINITION. The implementation parameters of 00_scope.md R5 and R6 that the model's definitions use, under the
spec's own names. The parameter OPCODE_MAP stands in Decode.lean (`OpcodeMap`, `defaultOpcodeMap`). -/

namespace Sys2Proof.Config

/-- MEMSIZE: the number of memory cells, addresses 0 to 255 (00_scope.md R5). -/
abbrev memSize : Nat := 256

/-- NREGS: the number of general registers (00_scope.md R5). -/
abbrev nRegs : Nat := 8

/-- SP_INDEX: the stack pointer is register 7 (00_scope.md R5). -/
abbrev spIndex : RegIdx := 7

/-- SP_RESET: the stack pointer after reset (00_scope.md R5). -/
abbrev spReset : Byte := 0xF4#8

/-- PC_RESET: the program counter after reset (00_scope.md R5). -/
abbrev pcReset : Byte := 0x00#8

/-- RESET_MODE, the named parameter of 00_scope.md R6: what R0 to R6 and FL hold after reset. -/
inductive ResetMode where
  /-- They hold no value, and reading one before it is written raises UnwrittenRead. -/
  | unwritten
  /-- They reset to 0x00. -/
  | zero
deriving DecidableEq, Repr

end Sys2Proof.Config
end

