-- ==== Sys2Proof/Syntax.lean ====
section
/-! DEFINITION. The instructions of the opcode table (30_encoding.md R41), one constructor a row in the table's
order, with the operand bytes their format uses (R42). A register operand is kept as its WHOLE byte, because a byte
above 7 is a legal encoding whose execution raises BadRegister (10_state.md R14); an operand byte a format ignores
is no part of the instruction (30_encoding.md R48). -/

namespace Sys2Proof

/-- The sixteen instructions. `a` is the byte at pc+1 and `b` the byte at pc+2 (30_encoding.md R44). -/
inductive Instr where
  /-- HLT (46_halt.md R87). -/
  | hlt
  /-- LDI: `a` names the destination, `b` is the literal (41_data_movement.md R68). -/
  | ldi (a b : Byte)
  /-- PRN: `a` names the source (41_data_movement.md R69). -/
  | prn (a : Byte)
  /-- PUSH: `a` names the source (41_data_movement.md R70). -/
  | push (a : Byte)
  /-- POP: `a` names the destination (41_data_movement.md R71). -/
  | pop (a : Byte)
  /-- CALL: `a` names the register that holds the subroutine's address (45_subroutine.md R84). -/
  | call (a : Byte)
  /-- RET (45_subroutine.md R85). -/
  | ret
  /-- ADD: `a` names source and destination, `b` the second source (42_arithmetic.md R72). -/
  | add (a b : Byte)
  /-- SUB: `a` names minuend and destination, `b` the subtrahend (42_arithmetic.md R73). -/
  | sub (a b : Byte)
  /-- MUL: `a` names a factor and the destination, `b` the other factor (42_arithmetic.md R74). -/
  | mul (a b : Byte)
  /-- INC: `a` names source and destination (42_arithmetic.md R75). -/
  | inc (a : Byte)
  /-- DEC: `a` names source and destination (42_arithmetic.md R76). -/
  | dec (a : Byte)
  /-- CMP: `a` and `b` name the registers compared (43_compare.md R78). -/
  | cmp (a b : Byte)
  /-- JMP: `a` names the register that holds the target (44_branch.md R80). -/
  | jmp (a : Byte)
  /-- JEQ: `a` names the register that holds the target (44_branch.md R81). -/
  | jeq (a : Byte)
  /-- JNE: `a` names the register that holds the target (44_branch.md R82). -/
  | jne (a : Byte)
deriving DecidableEq, Repr

/-- The sixteen mnemonics of 30_encoding.md R41: an instruction without its operands. -/
inductive Mnemonic where
  | hlt | ldi | prn | push | pop | call | ret | add | sub | mul | inc | dec | cmp | jmp | jeq | jne
deriving DecidableEq, Repr

/-- The four formats of 30_encoding.md R42, by the operands they use. -/
inductive Format where
  /-- No operand. -/
  | f0
  /-- One register index, A. -/
  | f1r
  /-- A register index, A, and a literal, B. -/
  | f2ri
  /-- Two register indices, A and B. -/
  | f2rr
deriving DecidableEq, Repr

end Sys2Proof
end

