-- ==== Sys2Proof/WellFormed.lean ====
section
/-! DEFINITION. Which instructions are well formed: every register operand the instruction USES names a register,
that is, its byte is 0 to 7 (10_state.md R14, 60_exceptions.md R91). LDI's literal may be any byte (30_encoding.md
R44). The decoder yields ill-formed instructions too, since their encodings are legal; executing one raises
BadRegister or an anomaly that the handler checks earlier. -/

namespace Sys2Proof

/-- A register operand byte that names a register, 0 to 7 (10_state.md R14). -/
def regOperandOk (i : Byte) : Bool := decide (i.toNat ≤ 7)

/-- Every register operand of the instruction names a register. -/
def Instr.wellFormed (i : Instr) : Bool :=
  match i with
  | .hlt => true
  | .ldi a _ => regOperandOk a
  | .prn a => regOperandOk a
  | .push a => regOperandOk a
  | .pop a => regOperandOk a
  | .call a => regOperandOk a
  | .ret => true
  | .add a b => regOperandOk a && regOperandOk b
  | .sub a b => regOperandOk a && regOperandOk b
  | .mul a b => regOperandOk a && regOperandOk b
  | .inc a => regOperandOk a
  | .dec a => regOperandOk a
  | .cmp a b => regOperandOk a && regOperandOk b
  | .jmp a => regOperandOk a
  | .jeq a => regOperandOk a
  | .jne a => regOperandOk a

end Sys2Proof
end

