-- ==== Sys2Proof/Decode.lean ====
section
/-! DEFINITION. The decoder (40_cycle.md R54, R62), total on all bytes and rejecting by name, and the encoder. The
opcode map is the named parameter OPCODE_MAP (30_encoding.md R41, R51); both are written for any map, and
`decode`, `encode` take the spec's default. Machine/Step.lean has the step of the machine under any map. -/

namespace Sys2Proof

/-- A value of the parameter OPCODE_MAP: the opcode byte of each mnemonic (30_encoding.md R41). -/
abbrev OpcodeMap := Mnemonic → Byte

/-- The default OPCODE_MAP, the opcode column of 30_encoding.md R41. HLT, LDI, PRN and ADD are the source's;
the other twelve the spec marks as general knowledge (PRESUMED, unsafe, log 6). -/
def defaultOpcodeMap : OpcodeMap
  | .hlt  => 0x01#8
  | .ldi  => 0x82#8
  | .prn  => 0x47#8
  | .push => 0x45#8
  | .pop  => 0x46#8
  | .call => 0x50#8
  | .ret  => 0x11#8
  | .add  => 0xA0#8
  | .sub  => 0xA1#8
  | .mul  => 0xA2#8
  | .inc  => 0x65#8
  | .dec  => 0x66#8
  | .cmp  => 0xA7#8
  | .jmp  => 0x54#8
  | .jeq  => 0x55#8
  | .jne  => 0x56#8

/-- All mnemonics, in the order of 30_encoding.md R41. -/
def Mnemonic.all : List Mnemonic :=
  [.hlt, .ldi, .prn, .push, .pop, .call, .ret, .add, .sub, .mul, .inc, .dec, .cmp, .jmp, .jeq, .jne]

/-- The format column of 30_encoding.md R41. -/
def Mnemonic.format (m : Mnemonic) : Format :=
  match m with
  | .hlt | .ret => .f0
  | .ldi => .f2ri
  | .add | .sub | .mul | .cmp => .f2rr
  | .prn | .push | .pop | .call | .inc | .dec | .jmp | .jeq | .jne => .f1r

/-- How many operand bytes a format uses (30_encoding.md R42). -/
def Format.operandCount (f : Format) : Nat :=
  match f with
  | .f0 => 0
  | .f1r => 1
  | .f2ri => 2
  | .f2rr => 2

/-- The length of an instruction in bytes: its opcode and its format's operands (30_encoding.md R42, R47). Like
`setsPc` it is fixed "whatever byte value a different map gives the row" (R41), and it is the `len` that the opcode
byte's own bits give under every map that keeps R51 (`OpcodeMap.keepsFields`; log 13). -/
def Mnemonic.len (m : Mnemonic) : Nat := m.format.operandCount + 1

/-- `S` of a row: the instructions the source names as setting pc themselves: "branches, call, return, jump" (30_encoding.md R51). -/
def Mnemonic.setsPc (m : Mnemonic) : Bool :=
  match m with
  | .call | .ret | .jmp | .jeq | .jne => true
  | .hlt | .ldi | .prn | .push | .pop | .add | .sub | .mul | .inc | .dec | .cmp => false

/-- The instructions served by alu_dispatch (40_cycle.md R63). -/
def Mnemonic.isAlu (m : Mnemonic) : Bool :=
  match m with
  | .add | .sub | .mul | .inc | .dec | .cmp => true
  | .hlt | .ldi | .prn | .push | .pop | .call | .ret | .jmp | .jeq | .jne => false

/-- `n`, the operand count: bits 7:6 of the opcode byte (30_encoding.md R43, 40_cycle.md R54). -/
def opCount (op : Byte) : Nat := (op.extractLsb' 6 2).toNat

/-- `len`, the instruction length in bytes: n + 1 (30_encoding.md R47). -/
def opLen (op : Byte) : Nat := opCount op + 1

/-- `C`, the ALU class: bit 5 of the opcode byte, informative (30_encoding.md R43). -/
def opAluClass (op : Byte) : Bool := op.getLsbD 5

/-- `S`, the sets-PC bit: bit 4 of the opcode byte (30_encoding.md R43). -/
def opSetsPc (op : Byte) : Bool := op.getLsbD 4

/-- `id`, bits 3:0 of the opcode byte (30_encoding.md R43); no rule depends on it. -/
def opId (op : Byte) : Nat := (op.extractLsb' 0 4).toNat

/-- The two properties every OPCODE_MAP must keep (30_encoding.md R51). -/
def OpcodeMap.keepsFields (map : OpcodeMap) : Prop :=
  ∀ m : Mnemonic, opCount (map m) = m.format.operandCount ∧ opSetsPc (map m) = m.setsPc

/-- `OPCODE_MAP⁻¹`: the mnemonic of an opcode byte, or none where the byte is in no row (40_cycle.md R54). -/
def lookupOpcode (map : OpcodeMap) (ir : Byte) : Option Mnemonic :=
  Mnemonic.all.find? fun m => map m == ir

/-- Why the decoder rejects bytes. -/
inductive DecodeError where
  /-- The opcode byte is in no row of 30_encoding.md R41 (R45). -/
  | illegalOpcode (ir : Byte)
  /-- Fewer than three bytes were given, where the fetch window has three (40_cycle.md R53). -/
  | shortWindow (given : Nat)
deriving DecidableEq, Repr

/-- The instruction of a mnemonic and the two fetched operand bytes, each used as its format says
(30_encoding.md R42, R44, R48). -/
def Instr.build (m : Mnemonic) (a b : Byte) : Instr :=
  match m with
  | .hlt => .hlt
  | .ldi => .ldi a b
  | .prn => .prn a
  | .push => .push a
  | .pop => .pop a
  | .call => .call a
  | .ret => .ret
  | .add => .add a b
  | .sub => .sub a b
  | .mul => .mul a b
  | .inc => .inc a
  | .dec => .dec a
  | .cmp => .cmp a b
  | .jmp => .jmp a
  | .jeq => .jeq a
  | .jne => .jne a

/-- Decode the three latched bytes under an opcode map (40_cycle.md R54, R55). -/
def decodeWith (map : OpcodeMap) (ir a b : Byte) : Except DecodeError Instr :=
  match lookupOpcode map ir with
  | some m => .ok (Instr.build m a b)
  | none => .error (.illegalOpcode ir)

/-- Decode the three latched bytes under the default opcode map. -/
def decode (ir a b : Byte) : Except DecodeError Instr := decodeWith defaultOpcodeMap ir a b

/-- Decode any list of bytes: its first three are the fetch window, further ones are not looked at. -/
def decodeBytesWith (map : OpcodeMap) (bytes : List Byte) : Except DecodeError Instr :=
  match bytes with
  | ir :: a :: b :: _ => decodeWith map ir a b
  | short => .error (.shortWindow short.length)

/-- `decodeBytesWith` under the default opcode map. -/
def decodeBytes (bytes : List Byte) : Except DecodeError Instr := decodeBytesWith defaultOpcodeMap bytes

/-- The mnemonic of an instruction. -/
def Instr.mnemonic (i : Instr) : Mnemonic :=
  match i with
  | .hlt => .hlt
  | .ldi _ _ => .ldi
  | .prn _ => .prn
  | .push _ => .push
  | .pop _ => .pop
  | .call _ => .call
  | .ret => .ret
  | .add _ _ => .add
  | .sub _ _ => .sub
  | .mul _ _ => .mul
  | .inc _ => .inc
  | .dec _ => .dec
  | .cmp _ _ => .cmp
  | .jmp _ => .jmp
  | .jeq _ => .jeq
  | .jne _ => .jne

/-- The operand bytes of an instruction, in the order they lie after the opcode (30_encoding.md R42). -/
def Instr.operandBytes (i : Instr) : List Byte :=
  match i with
  | .hlt => []
  | .ldi a b => [a, b]
  | .prn a => [a]
  | .push a => [a]
  | .pop a => [a]
  | .call a => [a]
  | .ret => []
  | .add a b => [a, b]
  | .sub a b => [a, b]
  | .mul a b => [a, b]
  | .inc a => [a]
  | .dec a => [a]
  | .cmp a b => [a, b]
  | .jmp a => [a]
  | .jeq a => [a]
  | .jne a => [a]

/-- The encoder under an opcode map: the opcode byte, then the operand bytes (30_encoding.md R42). -/
def encodeWith (map : OpcodeMap) (i : Instr) : List Byte := map i.mnemonic :: i.operandBytes

/-- The encoder under the default opcode map. -/
def encode (i : Instr) : List Byte := encodeWith defaultOpcodeMap i

/-- Byte `k` of a number, counted from the least significant: byte 0 is the instruction's first byte. -/
def byteOf (w k : Nat) : Byte := BitVec.ofNat 8 (w / 2 ^ (8 * k))

/-- The instruction read from the first `nbits` bits of `w`, every later bit of the fetch window 0. -/
def decodeTableWord (nbits w : Nat) : Option Instr :=
  let v := w % 2 ^ nbits
  match decode (byteOf v 0) (byteOf v 1) (byteOf v 2) with
  | .ok i => some i
  | .error _ => none

end Sys2Proof
end

