-- ==== Sys2Proof/Machine/State.lean ====
section
/-! DEFINITION. The state of the core (10_state.md R26, with the latches of R21 and the written bits of R22), the
six anomalies (60_exceptions.md R88 to R95), the reasons a step can stop, and the state after reset (10_state.md
R25, 70_reset_and_hazards.md R108). -/

namespace Sys2Proof.Machine

/-- What an UnwrittenRead names: a register index or FL (60_exceptions.md R92). -/
inductive UnwrittenName where
  | reg (r : RegIdx)
  | fl
deriving DecidableEq, Repr

/-- The six anomalies, each with the `info` its rule records (60_exceptions.md R89 to R95). -/
inductive Anomaly where
  /-- The fetch window leaves memory; info is pc (R89). -/
  | fetchOutOfRange (pc : Byte)
  /-- The opcode byte has no handler; info is IR (R90). -/
  | illegalOpcode (ir : Byte)
  /-- A used register operand is above 7; info is the operand byte (R91). -/
  | badRegister (operand : Byte)
  /-- A register or FL is read before it is written, under RESET_MODE = Unwritten only (R92). -/
  | unwrittenRead (what : UnwrittenName)
  /-- A stack instruction moves SP out of 0 to 255; info is the attempted value, -1 or 256 (R93, R94). -/
  | stackOutOfRange (attempted : Int)
  /-- The advance passes 255; info is pc + len (R95). -/
  | pcOutOfRange (attempted : Nat)
deriving DecidableEq, Repr

/-- The record of a Faulted machine: the cause with its info, the pc at which the instruction was fetched and its
opcode byte (10_state.md R19, 60_exceptions.md R88). -/
structure FaultRecord where
  cause : Anomaly
  fpc   : Byte
  fop   : Byte
deriving DecidableEq, Repr

/-- The run state (10_state.md R19). -/
inductive RunState where
  | running
  | halted
  | faulted (r : FaultRecord)
deriving DecidableEq, Repr

/-- The written bits of R0 to R6 and of FL (10_state.md R22). They exist under RESET_MODE = Unwritten only. R7 has
no stored bit: it is written at reset and no bit is ever cleared (log 11). -/
inductive WrittenBits where
  /-- RESET_MODE = Zero: the bits do not exist. -/
  | absent
  /-- RESET_MODE = Unwritten: a bit for each of R0 to R6, and one for FL. -/
  | present (regs : Vector Bool 7) (fl : Bool)
deriving DecidableEq, Repr

/-- Memory as (address, byte) pairs in the canonical form `Memory.wf` of Machine/Memory.lean. -/
abbrev Memory := List Host.Cell

/-- The whole state of the core. -/
structure State where
  /-- The cells of `M` that do not hold 0x00 (10_state.md R18). -/
  mem     : Memory
  /-- `x[0..7]`; x[7] is SP (10_state.md R11, R12). -/
  regs    : Vector Byte 8
  /-- The program counter (10_state.md R15). -/
  pc      : Byte
  /-- The flag register FL: E, G, L in bits 0, 1, 2 (10_state.md R16). -/
  fl      : Byte
  /-- The run state (10_state.md R19). -/
  run     : RunState
  /-- The output stream, oldest value first (10_state.md R20). -/
  out     : List Byte
  /-- The latch IR, the opcode byte (10_state.md R21). -/
  latchIR : Byte
  /-- The latch A, operand byte 1 (10_state.md R21). -/
  latchA  : Byte
  /-- The latch B, operand byte 2 (10_state.md R21). -/
  latchB  : Byte
  /-- The written bits, which also tell the RESET_MODE the machine was reset in (10_state.md R22). -/
  written : WrittenBits
deriving DecidableEq, Repr

/-- The parameter RESET_MODE this machine was reset in (00_scope.md R6): the bits exist under Unwritten only. -/
def State.resetMode (s : State) : Config.ResetMode :=
  match s.written with
  | .absent => .zero
  | .present _ _ => .unwritten

/-- Why a step stops with `Outcome.fault`: there is no step, because the machine is in a final state
(40_cycle.md R59). An ANOMALY is no `Fault`: it is a next state whose `run` is `faulted` (60_exceptions.md R88). -/
inductive Fault where
  /-- Raised by `step` on a machine that HLT has stopped. Safe: the spec has no step there (log 5). -/
  | halted
  /-- Raised by `step` on a machine that an anomaly has stopped; carries its record. Safe (log 5). -/
  | faulted (r : FaultRecord)
deriving DecidableEq, Repr

/-- Why the model refuses. -/
inductive Refusal where
  /-- Raised by an arm of `exec` whose instruction has no meaning yet. No arm does. Safe. -/
  | notModelled (mnemonic : String)
  /-- Raised by `boot` for an image longer than the 256 bytes of memory, which "a model refuses"
  (70_reset_and_hazards.md R108). Safe. -/
  | imageTooLarge (length : Nat)
deriving DecidableEq, Repr

/-- The written bits after reset (70_reset_and_hazards.md R108). -/
def WrittenBits.atReset (mode : Config.ResetMode) : WrittenBits :=
  match mode with
  | .zero => .absent
  | .unwritten => .present (Vector.replicate 7 false) false

/-- The state after reset in a given RESET_MODE, before an image is loaded (10_state.md R25,
70_reset_and_hazards.md R108). Under Unwritten the 0x00 of R0 to R6 and FL only fills the field: `readReg` and
`rdFL` never give it out (log 3). The latches' 0x00 is never read (DESIGN CHOICE, log 4). -/
def State.resetIn (mode : Config.ResetMode) : State where
  mem     := []
  regs    := (Vector.replicate Config.nRegs 0x00#8).set Config.spIndex Config.spReset
  pc      := Config.pcReset
  fl      := 0x00#8
  run     := .running
  out     := []
  latchIR := 0x00#8
  latchA  := 0x00#8
  latchB  := 0x00#8
  written := WrittenBits.atReset mode

/-- The machine right after reset, with nothing loaded. RESET_MODE is `Zero`, so that every register holds a value
(DESIGN CHOICE, unsafe, log 1 and 2); `State.resetIn .unwritten` is the spec's default mode. -/
def State.reset : State := State.resetIn .zero

end Sys2Proof.Machine
end

