-- ==== Sys2Proof/Machine/Flags.lean ====
section
/-! DEFINITION. The flag register: the values CMP writes and the bits JEQ and JNE read (10_state.md R16,
43_compare.md R78, R79). -/

namespace Sys2Proof.Machine

/-- FL with E alone set. -/
def flagEqual : Byte := 0b00000001#8

/-- FL with G alone set. -/
def flagGreater : Byte := 0b00000010#8

/-- FL with L alone set. -/
def flagLess : Byte := 0b00000100#8

/-- The value CMP writes to FL: an unsigned comparison of regA with regB (43_compare.md R78). -/
def compareFlags (a b : Byte) : Byte :=
  if a = b then flagEqual else if b.toNat < a.toNat then flagGreater else flagLess

/-- The bit E of a flag value (10_state.md R16). -/
def flagBitE (f : Byte) : Bool := f.getLsbD 0

/-- The bit G of a flag value (10_state.md R16). -/
def flagBitG (f : Byte) : Bool := f.getLsbD 1

/-- The bit L of a flag value (10_state.md R16). -/
def flagBitL (f : Byte) : Bool := f.getLsbD 2

end Sys2Proof.Machine
end

