-- ==== Sys2Proof/Machine/Operands.lean ====
section
/-! DEFINITION. The register_file and flag_register accessors: the primitives `idx`, `rd`, `rdFL`, `x[i] <- v` and
`FL <- v` of 00_scope.md R8 (units: 40_cycle.md R64, R67). A failed check is the anomaly it raises. -/

namespace Sys2Proof.Machine

/-- `idx(i)`: the register a whole operand byte names, or BadRegister (10_state.md R14, 60_exceptions.md R91). -/
def idx (i : Byte) : Except Anomaly RegIdx :=
  if h : i.toNat < Config.nRegs then .ok ⟨i.toNat, h⟩ else .error (.badRegister i)

/-- `x[r]`, with no check. -/
def State.getReg (s : State) (r : RegIdx) : Byte := s.regs[r]

/-- SP, another name for x[7] (00_scope.md R8, 10_state.md R12). -/
def State.sp (s : State) : Byte := s.getReg Config.spIndex

/-- `written(x[r])`: true where no bit exists, and for R7 (10_state.md R22). -/
def WrittenBits.regWritten (w : WrittenBits) (r : RegIdx) : Bool :=
  match w with
  | .absent => true
  | .present regs _ => if h : r.val < 7 then regs[r.val] else true

/-- `written(FL)` (10_state.md R22). -/
def WrittenBits.flWritten (w : WrittenBits) : Bool :=
  match w with
  | .absent => true
  | .present _ fl => fl

/-- The bits after a write of register `r` (00_scope.md R8, 10_state.md R22). -/
def WrittenBits.markReg (w : WrittenBits) (r : RegIdx) : WrittenBits :=
  match w with
  | .absent => .absent
  | .present regs fl => if h : r.val < 7 then .present (regs.set r.val true) fl else .present regs fl

/-- The bits after a write of FL (00_scope.md R8, 10_state.md R22). -/
def WrittenBits.markFL (w : WrittenBits) : WrittenBits :=
  match w with
  | .absent => .absent
  | .present regs _ => .present regs true

/-- The second half of `rd`: the value of a register that has been written, or UnwrittenRead (60_exceptions.md R92). -/
def State.readReg (s : State) (r : RegIdx) : Except Anomaly Byte :=
  if s.written.regWritten r then .ok (s.getReg r) else .error (.unwrittenRead (.reg r))

/-- `rd(i)`: `idx(i)`, then the written check, then the value (00_scope.md R8). -/
def State.rd (s : State) (i : Byte) : Except Anomaly Byte := do
  let r ← idx i
  s.readReg r

/-- `rdFL()` (00_scope.md R8). -/
def State.rdFL (s : State) : Except Anomaly Byte :=
  if s.written.flWritten then .ok s.fl else .error (.unwrittenRead .fl)

/-- `x[r] <- v`, which also sets the written bit (00_scope.md R8). -/
def State.setReg (s : State) (r : RegIdx) (v : Byte) : State :=
  { s with regs := s.regs.set r v, written := s.written.markReg r }

/-- `FL <- v`, which also sets the written bit (00_scope.md R8). -/
def State.setFL (s : State) (v : Byte) : State := { s with fl := v, written := s.written.markFL }

end Sys2Proof.Machine
end

