-- ==== Sys2Proof/Machine/Alu.lean ====
section
/-! DEFINITION. alu_dispatch (40_cycle.md R63): the arithmetic of ADD, SUB, MUL, INC and DEC (42_arithmetic.md R72
to R77) and the comparison of CMP (43_compare.md R78), with the write enables that say where the result goes. -/

namespace Sys2Proof.Machine

/-- The outputs of alu_dispatch: a result for register A and a value for FL, each with its enable. -/
structure AluOut where
  res   : Byte
  resWe : Bool
  fl    : Byte
  flWe  : Bool
deriving DecidableEq, Repr

/-- A mathematical result reduced modulo 256 (42_arithmetic.md R77). -/
def narrow (n : Nat) : Byte := BitVec.ofNat 8 n

/-- An arithmetic result: `res_we = 1`, `fl_we = 0` (40_cycle.md R63). -/
def AluOut.result (n : Nat) : AluOut := { res := narrow n, resWe := true, fl := 0x00#8, flWe := false }

/-- A comparison: `res_we = 0`, `fl_we = 1` (40_cycle.md R63). -/
def AluOut.flags (f : Byte) : AluOut := { res := 0x00#8, resWe := false, fl := f, flWe := true }

/-- Nothing enabled: the instruction is not served by alu_dispatch. -/
def AluOut.idle : AluOut := { res := 0x00#8, resWe := false, fl := 0x00#8, flWe := false }

/-- The ALU, on unbounded integers and then reduced (42_arithmetic.md R77). INC and DEC ignore `b`. -/
def aluDispatch (op : Mnemonic) (a b : Byte) : AluOut :=
  match op with
  | .add => .result (a.toNat + b.toNat)
  | .sub => .result (a.toNat + 256 - b.toNat)
  | .mul => .result (a.toNat * b.toNat)
  | .inc => .result (a.toNat + 1)
  | .dec => .result (a.toNat + 255)
  | .cmp => .flags (compareFlags a b)
  | .hlt | .ldi | .prn | .push | .pop | .call | .ret | .jmp | .jeq | .jne => .idle

/-- The writes alu_dispatch enables: `res` at register A, `fl` to FL (40_cycle.md R63). -/
def State.writeBack (s : State) (r : RegIdx) (o : AluOut) : State :=
  let s1 := if o.resWe then s.setReg r o.res else s
  if o.flWe then s1.setFL o.fl else s1

end Sys2Proof.Machine
end

