-- ==== Sys2Proof/Machine/Memory.lean ====
section
/-! DEFINITION. The memory array and its two primitives, MemRead and MemWrite of one byte (00_scope.md R8,
10_state.md R18, 20_memory.md R27 to R31). A cell that is not listed reads as `Memory.unlisted`. An address is a
byte, so none lies outside memory; the checks that keep pc + 2 and SP in range are the callers' (20_memory.md R35). -/

namespace Sys2Proof.Machine

/-- What an unlisted cell reads as: memory is "zero-initialized at construction" (10_state.md R18, R25). -/
def Memory.unlisted : Byte := 0x00#8

/-- The byte at a cell. -/
def Memory.readCell (m : Memory) (n : Nat) : Byte :=
  match m with
  | [] => Memory.unlisted
  | (k, v) :: rest => if k = n then v else Memory.readCell rest n

/-- A cell in front of a list, left out where it holds what an unlisted cell reads as. -/
def Memory.consCell (n : Nat) (v : Byte) (m : Memory) : Memory :=
  if v = Memory.unlisted then m else (n, v) :: m

/-- Put a byte into a cell, keeping the addresses rising. -/
def Memory.writeCell (m : Memory) (n : Nat) (v : Byte) : Memory :=
  match m with
  | [] => Memory.consCell n v []
  | (k, w) :: rest =>
    if n < k then Memory.consCell n v ((k, w) :: rest)
    else if n = k then Memory.consCell n v rest
    else (k, w) :: Memory.writeCell rest n v

/-- The addresses rise from above `lo`, each is an address of memory, and no cell is listed that reads as an
unlisted one. -/
def Memory.wfAbove (lo : Option Nat) (m : Memory) : Bool :=
  match m with
  | [] => true
  | (k, v) :: rest =>
    (match lo with
      | none => true
      | some l => decide (l < k)) &&
    decide (k < Config.memSize) && decide (v ≠ Memory.unlisted) && Memory.wfAbove (some k) rest

/-- The canonical form: equal memories are equal lists. -/
def Memory.wf (m : Memory) : Bool := Memory.wfAbove none m

/-- `MemRead(a, 1)` (00_scope.md R8). -/
def State.readMem (s : State) (a : Byte) : Byte := Memory.readCell s.mem a.toNat

/-- `MemWrite(a, 1, v)` (00_scope.md R8). -/
def State.writeMem (s : State) (a v : Byte) : State := { s with mem := Memory.writeCell s.mem a.toNat v }

end Sys2Proof.Machine
end

