-- ==== Sys2Proof/Machine/Ops.lean ====
section
/-! DEFINITION. The operations the instructions share: raising an anomaly (60_exceptions.md R88), the fetch
(40_cycle.md R53), the stack of load_store_unit (40_cycle.md R65), the advance of pc_manage (40_cycle.md R57, R58,
R66) and the end of an instruction, which commits the working copy or nothing (00_scope.md R9). -/

namespace Sys2Proof.Machine

/-- `pc <- t` (00_scope.md R8). -/
def State.setPc (s : State) (t : Byte) : State := { s with pc := t }

/-- `run <- r`. -/
def State.setRun (s : State) (r : RunState) : State := { s with run := r }

/-- `emit(v)`: append to the output stream (00_scope.md R8, 10_state.md R20). -/
def State.emit (s : State) (v : Byte) : State := { s with out := s.out ++ [v] }

/-- `fop`: the byte at `fpc` as fetched, which is IR unless the fetch itself failed (60_exceptions.md R88). -/
def State.faultOpcode (s : State) (c : Anomaly) : Byte :=
  match c with
  | .fetchOutOfRange _ => s.readMem s.pc
  | _ => s.latchIR

/-- TAKING AN ANOMALY, `raise C(info)`: the run state becomes Faulted with the record, pc stays at the faulting
instruction, and nothing else changes: no vector, no saved state, no mode (60_exceptions.md R88, R99). There is no
return (R100), so nothing undoes it. -/
def State.raise (s : State) (c : Anomaly) : State :=
  s.setRun (.faulted { cause := c, fpc := s.pc, fop := s.faultOpcode c })

/-- The cause code of an anomaly (60_exceptions.md R89 to R95). -/
def Anomaly.code (c : Anomaly) : Nat :=
  match c with
  | .fetchOutOfRange _ => 1
  | .illegalOpcode _ => 2
  | .badRegister _ => 3
  | .unwrittenRead _ => 4
  | .stackOutOfRange _ => 5
  | .pcOutOfRange _ => 6

/-- The three latches loaded from M[pc], M[pc+1] and M[pc+2] (10_state.md R21). -/
def State.latch (s : State) : State :=
  { s with latchIR := s.readMem s.pc, latchA := s.readMem (s.pc + 1#8), latchB := s.readMem (s.pc + 2#8) }

/-- The fetch of fetch_unit: the window check, then the three unconditional reads (40_cycle.md R53, R61). -/
def State.fetch (s : State) : Except Anomaly State :=
  if s.pc.toNat ≤ 253 then .ok s.latch else .error (.fetchOutOfRange s.pc)

/-- The decoder on the latches, under an opcode map: the instruction, or IllegalOpcode (40_cycle.md R54, R55). -/
def State.decodeLatched (s : State) (map : OpcodeMap) : Except Anomaly Instr :=
  match decodeWith map s.latchIR s.latchA s.latchB with
  | .ok i => .ok i
  | .error _ => .error (.illegalOpcode s.latchIR)

/-- The first half of a push: SP is checked and decremented (40_cycle.md R65, 60_exceptions.md R93). -/
def State.decSp (s : State) : Except Anomaly State :=
  if 1 ≤ s.sp.toNat then .ok (s.setReg Config.spIndex (narrow (s.sp.toNat - 1)))
  else .error (.stackOutOfRange ((s.sp.toNat : Int) - 1))

/-- The second half of a pop: SP is checked and incremented (40_cycle.md R65, 60_exceptions.md R94). -/
def State.incSp (s : State) : Except Anomaly State :=
  if s.sp.toNat + 1 ≤ 255 then .ok (s.setReg Config.spIndex (narrow (s.sp.toNat + 1)))
  else .error (.stackOutOfRange ((s.sp.toNat : Int) + 1))

/-- The push operation of load_store_unit, for a value known before it (40_cycle.md R65). -/
def State.stackPush (s : State) (v : Byte) : Except Anomaly State := do
  let s1 ← s.decSp
  pure (s1.writeMem s1.sp v)

/-- The pop operation of load_store_unit: the byte at SP, and the state with SP incremented (40_cycle.md R65). -/
def State.stackPop (s : State) : Except Anomaly (Byte × State) := do
  let v := s.readMem s.sp
  let s1 ← s.incSp
  pure (v, s1)

/-- `pc + len` (40_cycle.md R57), for the length that the row of the opcode table has under every opcode map
(30_encoding.md R41). -/
def State.pcAfter (s : State) (m : Mnemonic) : Nat := s.pc.toNat + m.len

/-- The Advance phase for S = 0: only a Running machine advances, and an advance past 255 raises PcOutOfRange over
the effects already there (40_cycle.md R57, 60_exceptions.md R95). -/
def State.advance (s : State) (m : Mnemonic) : State :=
  match s.run with
  | .running =>
    if s.pcAfter m ≤ 255 then s.setPc (narrow (s.pcAfter m)) else s.raise (.pcOutOfRange (s.pcAfter m))
  | _ => s

/-- The end of a step whose handler, run on a working copy of `s`, gave `h`: a failed check leaves `s` with the
anomaly raised, and otherwise the copy replaces `s` and is advanced unless S = 1 (00_scope.md R9, 40_cycle.md R57,
R58, R60). S is the row's, which every opcode map keeps (30_encoding.md R41, R51). -/
def complete (m : Mnemonic) (s : State) (h : Except Anomaly State) : Host.Outcome State Fault Refusal :=
  match h with
  | .error c => .next (s.raise c)
  | .ok t => .next (if m.setsPc then t else t.advance m)

end Sys2Proof.Machine
end

