-- ==== Sys2Proof/Machine/Arithmetic.lean ====
section
/-! DEFINITION. The arithmetic instructions ADD, SUB, MUL, INC and DEC (42_arithmetic.md). -/

namespace Sys2Proof.Machine

/-- A handler with two register sources served by alu_dispatch: A is checked and read, then B, then the enabled
writes happen (42_arithmetic.md R72 to R74, 43_compare.md R78, 40_cycle.md R63). -/
def aluTwo (m : Mnemonic) (a b : Byte) (s : State) : Except Anomaly State := do
  let r ← idx a
  let x ← s.readReg r
  let y ← s.rd b
  pure (s.writeBack r (aluDispatch m x y))

/-- A handler with one register source served by alu_dispatch (42_arithmetic.md R75, R76, 40_cycle.md R63). -/
def aluOne (m : Mnemonic) (a : Byte) (s : State) : Except Anomaly State := do
  let r ← idx a
  let x ← s.readReg r
  pure (s.writeBack r (aluDispatch m x 0x00#8))

/-- ADD (42_arithmetic.md R72). -/
def execAdd (a b : Byte) (s : State) : Host.Outcome State Fault Refusal :=
  complete .add s (aluTwo .add a b s)

/-- SUB (42_arithmetic.md R73). -/
def execSub (a b : Byte) (s : State) : Host.Outcome State Fault Refusal :=
  complete .sub s (aluTwo .sub a b s)

/-- MUL (42_arithmetic.md R74). -/
def execMul (a b : Byte) (s : State) : Host.Outcome State Fault Refusal :=
  complete .mul s (aluTwo .mul a b s)

/-- INC (42_arithmetic.md R75). -/
def execInc (a : Byte) (s : State) : Host.Outcome State Fault Refusal :=
  complete .inc s (aluOne .inc a s)

/-- DEC (42_arithmetic.md R76). -/
def execDec (a : Byte) (s : State) : Host.Outcome State Fault Refusal :=
  complete .dec s (aluOne .dec a s)

end Sys2Proof.Machine
end

