-- ==== Sys2Proof/Machine/Branch.lean ====
section
/-! DEFINITION. The branches JMP, JEQ and JNE (44_branch.md). Each writes pc on every path. -/

namespace Sys2Proof.Machine

/-- JMP (44_branch.md R80). -/
def execJmp (a : Byte) (s : State) : Host.Outcome State Fault Refusal :=
  complete .jmp s do
    let t ← s.rd a
    pure (s.setPc t)

/-- JEQ: the target is read and checked on both paths, then FL (44_branch.md R81). -/
def execJeq (a : Byte) (s : State) : Host.Outcome State Fault Refusal :=
  complete .jeq s do
    let t ← s.rd a
    let f ← s.rdFL
    pure (if flagBitE f then s.setPc t else s.setPc (narrow (s.pcAfter .jeq)))

/-- JNE: as JEQ, on E being clear (44_branch.md R82). -/
def execJne (a : Byte) (s : State) : Host.Outcome State Fault Refusal :=
  complete .jne s do
    let t ← s.rd a
    let f ← s.rdFL
    pure (if flagBitE f then s.setPc (narrow (s.pcAfter .jne)) else s.setPc t)

end Sys2Proof.Machine
end

