-- ==== Sys2Proof/Machine/Compare.lean ====
section
/-! DEFINITION. The comparison CMP (43_compare.md). -/

namespace Sys2Proof.Machine

/-- CMP: the whole of FL is overwritten and no register is (43_compare.md R78). -/
def execCmp (a b : Byte) (s : State) : Host.Outcome State Fault Refusal :=
  complete .cmp s (aluTwo .cmp a b s)

end Sys2Proof.Machine
end

