-- ==== Sys2Proof/Machine/DataMovement.lean ====
section
/-! DEFINITION. The data-movement instructions LDI, PRN, PUSH and POP (41_data_movement.md). -/

namespace Sys2Proof.Machine

/-- LDI (41_data_movement.md R68). -/
def execLdi (a b : Byte) (s : State) : Host.Outcome State Fault Refusal :=
  complete .ldi s do
    let r ← idx a
    pure (s.setReg r b)

/-- PRN (41_data_movement.md R69). -/
def execPrn (a : Byte) (s : State) : Host.Outcome State Fault Refusal :=
  complete .prn s do
    let v ← s.rd a
    pure (s.emit v)

/-- PUSH: the register is read after SP is decremented, so PUSH R7 stores the new SP (41_data_movement.md R70). -/
def execPush (a : Byte) (s : State) : Host.Outcome State Fault Refusal :=
  complete .push s do
    let r ← idx a
    let s1 ← s.decSp
    let v ← s1.readReg r
    pure (s1.writeMem s1.sp v)

/-- POP: SP is read again after the register is written, so POP R7 leaves the popped byte plus 1
(41_data_movement.md R71). -/
def execPop (a : Byte) (s : State) : Host.Outcome State Fault Refusal :=
  complete .pop s do
    let r ← idx a
    let v := s.readMem s.sp
    let s1 := s.setReg r v
    s1.incSp

end Sys2Proof.Machine
end

