-- ==== Sys2Proof/Machine/Halt.lean ====
section
/-! DEFINITION. The halt HLT (46_halt.md). -/

namespace Sys2Proof.Machine

/-- HLT: run becomes Halted, so the Advance phase leaves pc at the HLT (46_halt.md R87). -/
def execHlt (s : State) : Host.Outcome State Fault Refusal :=
  complete .hlt s (.ok (s.setRun .halted))

end Sys2Proof.Machine
end

