-- ==== Sys2Proof/Machine/Subroutine.lean ====
section
/-! DEFINITION. The subroutine instructions CALL and RET (45_subroutine.md). -/

namespace Sys2Proof.Machine

/-- CALL: the return address pc + 2 is pushed, then the target is read, so CALL R7 jumps to the new SP
(45_subroutine.md R84). -/
def execCall (a : Byte) (s : State) : Host.Outcome State Fault Refusal :=
  complete .call s do
    let r ← idx a
    let s1 ← s.stackPush (narrow (s.pcAfter .call))
    let t ← s1.readReg r
    pure (s1.setPc t)

/-- RET (45_subroutine.md R85). -/
def execRet (s : State) : Host.Outcome State Fault Refusal :=
  complete .ret s do
    let (t, s1) ← s.stackPop
    pure (s1.setPc t)

end Sys2Proof.Machine
end

