-- ==== Sys2Proof/Machine/Step.lean ====
section
/-! DEFINITION. The one step of the machine (40_cycle.md R52, R59, R60), under any value of the parameter OPCODE_MAP
(30_encoding.md R41) and under its default, and the placing of a word where the next
step fetches. -/

namespace Sys2Proof.Machine

/-- One step of the machine whose OPCODE_MAP is `map`: fetch, dispatch, execute and advance. A machine that is not
Running has no step (40_cycle.md R59, R60). The map is fixed: no step changes it (R55). -/
def stepWith (map : OpcodeMap) (s : State) : Host.Outcome State Fault Refusal :=
  match s.run with
  | .halted => .fault .halted
  | .faulted r => .fault (.faulted r)
  | .running =>
    match s.fetch with
    | .error c => .next (s.raise c)
    | .ok s1 =>
      match s1.decodeLatched map with
      | .error c => .next (s1.raise c)
      | .ok i => exec i s1

/-- One step of the machine with the spec's default OPCODE_MAP (30_encoding.md R41). -/
def step (s : State) : Host.Outcome State Fault Refusal := stepWith defaultOpcodeMap s

/-- `s` with the three bytes of the first `nbits` bits of `w` stored at pc, pc + 1 and pc + 2. It stands for the
outside loader (log 9). -/
def State.withFetchWord (s : State) (nbits w : Nat) : State :=
  let v := w % 2 ^ nbits
  let s0 := s.writeMem s.pc (byteOf v 0)
  let s1 := s0.writeMem (s.pc + 1#8) (byteOf v 1)
  s1.writeMem (s.pc + 2#8) (byteOf v 2)

end Sys2Proof.Machine
end

