-- ==== Sys2Proof/Machine/Boot.lean ====
section
/-! DEFINITION. Reset with an image (70_reset_and_hazards.md R108): how a program comes to run. The parsing of the
program file is the loader's and out of scope (00_scope.md R4); what is here is the finished byte image. -/

namespace Sys2Proof.Machine

/-- The image written to successive cells from `n` upward (70_reset_and_hazards.md R108). -/
def Memory.load (m : Memory) (n : Nat) (image : List Byte) : Memory :=
  match image with
  | [] => m
  | v :: rest => Memory.load (Memory.writeCell m n v) (n + 1) rest

/-- Reset in a RESET_MODE with an image loaded from address 0; a longer image than memory is refused
(70_reset_and_hazards.md R108). -/
def boot (mode : Config.ResetMode) (image : List Byte) : Host.Outcome State Fault Refusal :=
  if image.length ≤ Config.memSize then
    .next { State.resetIn mode with mem := Memory.load [] 0 image }
  else .refused (.imageTooLarge image.length)

end Sys2Proof.Machine
end

