-- ==== Sys2Proof/Safety.lean ====
section
/-! DEFINITION. What the statements say of states and runs: the anomaly record a rule asks for, the frame of an
instruction, the invariant every step keeps, and the run of a program with its observation (70_reset_and_hazards.md
R112). -/

namespace Sys2Proof.Machine

/-- `s` stopped by an anomaly of the instruction whose opcode is latched: nothing else of `s` changes
(60_exceptions.md R88). -/
def State.faultedAt (s : State) (c : Anomaly) : State :=
  { s with run := .faulted { cause := c, fpc := s.pc, fop := s.latchIR } }

/-- What an instruction leaves unchanged between `s` and `t`: every register outside `dest` with its written bit,
every byte of memory outside `cells`, the latches and the RESET_MODE. -/
structure Frame (dest : List RegIdx) (cells : List Byte) (s t : State) : Prop where
  regs    : ∀ q, q ∉ dest → t.getReg q = s.getReg q ∧ t.written.regWritten q = s.written.regWritten q
  mem     : ∀ p, p ∉ cells → t.readMem p = s.readMem p
  latches : t.latchIR = s.latchIR ∧ t.latchA = s.latchA ∧ t.latchB = s.latchB
  mode    : t.resetMode = s.resetMode

/-- FL and its written bit are unchanged. -/
def FlagsSame (s t : State) : Prop := t.fl = s.fl ∧ t.written.flWritten = s.written.flWritten

/-- The output stream is unchanged. -/
def OutSame (s t : State) : Prop := t.out = s.out

/-- The machine runs on, `len` bytes further (40_cycle.md R57). -/
def AdvancedBy (len : Nat) (s t : State) : Prop := t.run = .running ∧ t.pc.toNat = s.pc.toNat + len

/-- The Advance phase for S = 0, both of its outcomes: the advance, or PcOutOfRange with pc kept (40_cycle.md R57,
60_exceptions.md R95). -/
def AdvancedOrPastEnd (len : Nat) (s t : State) : Prop :=
  (s.pc.toNat + len ≤ 255 → AdvancedBy len s t) ∧
  (255 < s.pc.toNat + len →
    t.run = .faulted { cause := .pcOutOfRange (s.pc.toNat + len), fpc := s.pc, fop := s.latchIR } ∧ t.pc = s.pc)

/-- The machine runs on at `target` (40_cycle.md R58). -/
def JumpedTo (target : Byte) (t : State) : Prop := t.run = .running ∧ t.pc = target

/-- FL holds one of the three values CMP writes, or its reset value before any CMP (10_state.md R16, R17). Under
RESET_MODE = Zero no bit tells whether a CMP has run. -/
def State.flagsLegal (s : State) : Prop :=
  s.fl = flagEqual ∨ s.fl = flagGreater ∨ s.fl = flagLess ∨
    (s.fl = 0x00#8 ∧ (s.resetMode = .unwritten → s.written.flWritten = false))

/-- What the info of an anomaly can be under the default opcode map, given the state it stopped and the recorded opcode
(60_exceptions.md R89 to R95). -/
def Anomaly.legalIn (c : Anomaly) (s : State) (fop : Byte) : Prop :=
  match c with
  | .fetchOutOfRange p => p = s.pc ∧ 253 < p.toNat
  | .illegalOpcode ir => ir = fop ∧ lookupOpcode defaultOpcodeMap ir = none
  | .badRegister operand => 7 < operand.toNat
  | .unwrittenRead (.reg r) => s.written.regWritten r = false ∧ r ≠ Config.spIndex
  | .unwrittenRead .fl => s.written.flWritten = false
  | .stackOutOfRange k => k = -1 ∨ k = 256
  | .pcOutOfRange n => n = 256 ∧ s.pc = 253#8

/-- The record of a Faulted machine fits its state: pc is left at `fpc`, and the info is one the cause can have
(60_exceptions.md R88). -/
def State.recordLegal (s : State) : Prop :=
  ∀ r, s.run = .faulted r → r.fpc = s.pc ∧ r.fop = s.readMem s.pc ∧ r.cause.legalIn s r.fop

/-- The invariant of the machine. -/
structure State.Inv (s : State) : Prop where
  /-- Memory is in its canonical form. -/
  memWf  : Memory.wf s.mem = true
  /-- FL holds a legal value. -/
  flags  : s.flagsLegal
  /-- The Faulted record fits the state. -/
  record : s.recordLegal

/-- `k` steps of a run under an opcode map, which stays where it is once it has stopped (70_reset_and_hazards.md
R112). A claim about a binary names the map it assumes (92_eei_decisions.md D1). -/
def runStepsWith (map : OpcodeMap) (k : Nat) (s : State) : State :=
  match k with
  | 0 => s
  | n + 1 =>
    match stepWith map s with
    | .next t => runStepsWith map n t
    | _ => s

/-- `k` steps of a run under the default opcode map. -/
def runSteps (k : Nat) (s : State) : State := runStepsWith defaultOpcodeMap k s

/-- What a run shows the host: the run state with its record, the output, M, x, pc and FL, and under Unwritten the
written bits (70_reset_and_hazards.md R112, 10_state.md R22, R26). The latches are no part of it (10_state.md R21). -/
structure Observation where
  run     : RunState
  out     : List Byte
  mem     : Memory
  regs    : Vector Byte 8
  pc      : Byte
  fl      : Byte
  written : WrittenBits
deriving DecidableEq, Repr

/-- The observation of a state. -/
def State.observe (s : State) : Observation :=
  { run := s.run, out := s.out, mem := s.mem, regs := s.regs, pc := s.pc, fl := s.fl, written := s.written }

/-- A safe run under an opcode map: after any number of steps the machine has raised no anomaly. -/
def SafeRun (map : OpcodeMap) (s : State) : Prop := ∀ k r, (runStepsWith map k s).run ≠ .faulted r

end Sys2Proof.Machine
end

