-- ==== Sys2Proof/Certificates/Slice0/Obligations.lean ====
section
/-! DEFINITION. The statements for the provers. First the shapes that several statements share, then one
`def Obligations.<Name> : Prop` each, listed in OBLIGATIONS.json. A statement about an instruction is about `exec`
on a Running state whose fetch has succeeded (pc at most 253, 40_cycle.md R53); `AStepRunsTheDecodedInstruction`
carries it to a run. -/

namespace Sys2Proof.Machine

/-- The state after the step is `exec`'s answer: the instruction stops by the anomaly `c`, with nothing else of `s`
changed (60_exceptions.md R88). -/
def StopsBy (i : Instr) (s : State) (c : Anomaly) : Prop := exec i s = .next (s.faultedAt c)

/-- The checks `rd` makes on the operand byte `a`, in order: BadRegister, then UnwrittenRead, then whatever `use` says
of the register (00_scope.md R8, 60_exceptions.md R97). -/
def AfterRead (i : Instr) (s : State) (a : Byte) (use : RegIdx → Prop) : Prop :=
  (7 < a.toNat → StopsBy i s (.badRegister a)) ∧
  ∀ r : RegIdx, r.val = a.toNat →
    (s.written.regWritten r = false → StopsBy i s (.unwrittenRead (.reg r))) ∧
    (s.written.regWritten r = true → use r)

/-- ADD, SUB and MUL (42_arithmetic.md R72 to R74): encoding, checks in order, and the result `f` of the two register
values modulo 256 in the register `a` names, with the frame and the advance by 3. -/
def BinaryArithmetic (ins : Byte → Byte → Instr) (opcode : Byte) (f : Nat → Nat → Nat) : Prop :=
  ∀ (a b : Byte) (s : State),
    encode (ins a b) = [opcode, a, b] ∧
    (s.run = .running → s.pc.toNat ≤ 253 →
      AfterRead (ins a b) s a fun ra => AfterRead (ins a b) s b fun rb =>
        ∃ t, exec (ins a b) s = .next t ∧
          (t.getReg ra).toNat = f (s.getReg ra).toNat (s.getReg rb).toNat % 256 ∧
          t.written.regWritten ra = true ∧
          Frame [ra] [] s t ∧ FlagsSame s t ∧ OutSame s t ∧ AdvancedOrPastEnd 3 s t)

/-- INC and DEC (42_arithmetic.md R75, R76): as `BinaryArithmetic`, with one source and the advance by 2, which never
passes 255. -/
def UnaryArithmetic (ins : Byte → Instr) (opcode : Byte) (f : Nat → Nat) : Prop :=
  ∀ (a : Byte) (s : State),
    encode (ins a) = [opcode, a] ∧
    (s.run = .running → s.pc.toNat ≤ 253 →
      AfterRead (ins a) s a fun r =>
        ∃ t, exec (ins a) s = .next t ∧
          (t.getReg r).toNat = f (s.getReg r).toNat % 256 ∧
          t.written.regWritten r = true ∧
          Frame [r] [] s t ∧ FlagsSame s t ∧ OutSame s t ∧ AdvancedBy 2 s t)

/-- JEQ and JNE (44_branch.md R81, R82): the register is checked on both paths, then FL; the branch is taken when the
bit E is `takenOn`, and otherwise pc advances by 2. -/
def ConditionalBranch (ins : Byte → Instr) (opcode : Byte) (takenOn : Bool) : Prop :=
  ∀ (a : Byte) (s : State),
    encode (ins a) = [opcode, a] ∧
    (s.run = .running → s.pc.toNat ≤ 253 →
      AfterRead (ins a) s a fun r =>
        (s.written.flWritten = false → StopsBy (ins a) s (.unwrittenRead .fl)) ∧
        (s.written.flWritten = true →
          ∃ t, exec (ins a) s = .next t ∧
            (s.fl.getLsbD 0 = takenOn → JumpedTo (s.getReg r) t) ∧
            (s.fl.getLsbD 0 ≠ takenOn → AdvancedBy 2 s t) ∧
            Frame [] [] s t ∧ FlagsSame s t ∧ OutSame s t))

/-- The sixteen opcode bytes of 30_encoding.md R41, in its order. -/
def tableOpcodes : List Byte :=
  [0x01#8, 0x82#8, 0x47#8, 0x45#8, 0x46#8, 0x50#8, 0x11#8, 0xA0#8,
   0xA1#8, 0xA2#8, 0x65#8, 0x66#8, 0xA7#8, 0x54#8, 0x55#8, 0x56#8]

end Sys2Proof.Machine

open Sys2Proof Sys2Proof.Machine

/-! ### Encoding -/

/-- Under every OPCODE_MAP that gives no two mnemonics one byte, the fetch window that holds an instruction's encoding
and anything after it decodes to that instruction (30_encoding.md R41, R42, R44, R48). -/
def Obligations.DecodeOfEncodeUnderAnyOpcodeMap : Prop :=
  ∀ (map : OpcodeMap), Function.Injective map → ∀ (i : Instr) (p q : Byte) (rest : List Byte),
    decodeBytesWith map (encodeWith map i ++ p :: q :: rest) = .ok i

/-- What the default decoder accepts is the encoding of what it answers, as long as the opcode byte says, followed by
bytes the format ignores (30_encoding.md R42, R47). -/
def Obligations.DecodedBytesAreTheEncoding : Prop :=
  ∀ (ir a b : Byte) (i : Instr), decode ir a b = .ok i →
    encode i = [ir, a, b].take (opLen ir) ∧ (encode i).length = opLen ir ∧ opLen ir ≤ 3

/-- The decoder accepts exactly the sixteen bytes of the table and rejects the other 240 by name (30_encoding.md R41,
R45). -/
def Obligations.DecoderAcceptsExactlyTheTable : Prop :=
  (∀ ir a b : Byte, ir ∈ tableOpcodes → ∃ i, decode ir a b = .ok i ∧ defaultOpcodeMap i.mnemonic = ir) ∧
  (∀ ir a b : Byte, ir ∉ tableOpcodes → decode ir a b = .error (.illegalOpcode ir)) ∧
  tableOpcodes.Nodup ∧ tableOpcodes.length = 16

/-- The opcode bytes carry the operand count in bits 7:6, as R51 lists it in the table's order, and S in bit 4, S being
1 for exactly CALL, RET, JMP, JEQ and JNE (30_encoding.md R51). -/
def Obligations.OpcodeBitsGiveCountAndSetsPc : Prop :=
  (Mnemonic.all.map fun m => (defaultOpcodeMap m).toNat / 64) = [0, 2, 1, 1, 1, 1, 0, 2, 2, 2, 1, 1, 2, 1, 1, 1] ∧
  (∀ m : Mnemonic, (defaultOpcodeMap m).getLsbD 4 = true ↔ m ∈ [.call, .ret, .jmp, .jeq, .jne]) ∧
  defaultOpcodeMap.keepsFields

/-- Operand bytes an instruction's format ignores do not affect it: they do not change what is decoded, and executing
the instruction does not read the operand latches (30_encoding.md R48). The second clause is about `exec` on EVERY
state; on one that no fetch has prepared (not Running, or pc above 253) what `exec` answers is the model's choice
(log 10). -/
def Obligations.IgnoredOperandBytesHaveNoEffect : Prop :=
  (∀ ir a b a' b' : Byte,
    (opCount ir = 0 → decode ir a b = decode ir a' b') ∧ (opCount ir = 1 → decode ir a b = decode ir a b')) ∧
  (∀ (i : Instr) (s t : State) (x y : Byte), exec i s = .next t →
    exec i { s with latchA := x, latchB := y } = .next { t with latchA := x, latchB := y })

/-- Words written out from the spec's encodings decode to what they stand for (95_test_vectors.md W1, P2 to P4). -/
def Obligations.WrittenOutWordsDecode : Prop :=
  decode 0b10000010#8 0b00000000#8 0b00001000#8 = .ok (.ldi 0 8) ∧
  decode 0b10100000#8 0b00000000#8 0b00000001#8 = .ok (.add 0 1) ∧
  decode 0b01000111#8 0b00000000#8 0b00000001#8 = .ok (.prn 0) ∧
  decode 0b00000001#8 0b00000000#8 0b00000000#8 = .ok .hlt ∧
  decode 0b10100111#8 0b00000000#8 0b00000001#8 = .ok (.cmp 0 1) ∧
  decode 0b01010110#8 0b00000010#8 0b00000001#8 = .ok (.jne 2) ∧
  decode 0b01010000#8 0b00000001#8 0b01000111#8 = .ok (.call 1) ∧
  decode 0b00010001#8 0b00000000#8 0b00000000#8 = .ok .ret ∧
  decode 0b01000101#8 0b00000000#8 0b01000110#8 = .ok (.push 0)

/-! ### The step -/

/-- Where the three bytes at pc decode to an instruction, the step is `exec` of it on the state with the three latches
loaded (40_cycle.md R53, R55, R60); `exec` includes the Advance phase. -/
def Obligations.AStepRunsTheDecodedInstruction : Prop :=
  ∀ (s : State) (i : Instr), s.run = .running → s.pc.toNat ≤ 253 →
    decode (s.readMem s.pc) (s.readMem (s.pc + 1#8)) (s.readMem (s.pc + 2#8)) = .ok i →
    step s = exec i { s with
      latchIR := s.readMem s.pc, latchA := s.readMem (s.pc + 1#8), latchB := s.readMem (s.pc + 2#8) }

/-- The machine under any OPCODE_MAP (30_encoding.md R41, 40_cycle.md R54, R55): where the map's decoder reads an
instruction from the three bytes at pc, the step is `exec` of it on the state with the latches loaded; where no row has
the byte, it raises IllegalOpcode; and `step` is the step under the default map. It is stated for EVERY map. A map that
breaks R51 is no value of OPCODE_MAP, and R54's decoder would advance by the byte's bits there; that the step advances
by the row's length instead, and that of two mnemonics with one byte the first is decoded, is the model's choice
(log 13). -/
def Obligations.AStepUnderAnyOpcodeMapRunsTheDecodedInstruction : Prop :=
  ∀ (map : OpcodeMap) (s : State), s.run = .running → s.pc.toNat ≤ 253 →
    (∀ i, decodeWith map (s.readMem s.pc) (s.readMem (s.pc + 1#8)) (s.readMem (s.pc + 2#8)) = .ok i →
      stepWith map s = exec i { s with
        latchIR := s.readMem s.pc, latchA := s.readMem (s.pc + 1#8), latchB := s.readMem (s.pc + 2#8) }) ∧
    ((∀ m, map m ≠ s.readMem s.pc) →
      stepWith map s = .next { s with
        latchIR := s.readMem s.pc, latchA := s.readMem (s.pc + 1#8), latchB := s.readMem (s.pc + 2#8),
        run := .faulted { cause := .illegalOpcode (s.readMem s.pc), fpc := s.pc, fop := s.readMem s.pc } }) ∧
    step s = stepWith defaultOpcodeMap s

/-- A step at pc above 253 raises FetchOutOfRange whatever byte is there (60_exceptions.md R89). -/
def Obligations.FetchPastTheEndFaults : Prop :=
  ∀ s : State, s.run = .running → 253 < s.pc.toNat →
    step s = .next { s with
      run := .faulted { cause := .fetchOutOfRange s.pc, fpc := s.pc, fop := s.readMem s.pc } } ∧
    (Anomaly.fetchOutOfRange s.pc).code = 1

/-- A step whose opcode byte is not in the table raises IllegalOpcode (60_exceptions.md R90, 30_encoding.md R45). -/
def Obligations.IllegalOpcodeFaults : Prop :=
  ∀ s : State, s.run = .running → s.pc.toNat ≤ 253 → s.readMem s.pc ∉ tableOpcodes →
    (∃ t, step s = .next t ∧
      t.run = .faulted { cause := .illegalOpcode (s.readMem s.pc), fpc := s.pc, fop := s.readMem s.pc } ∧
      t.regs = s.regs ∧ t.written = s.written ∧ t.fl = s.fl ∧ t.mem = s.mem ∧ t.out = s.out ∧ t.pc = s.pc) ∧
    (Anomaly.illegalOpcode (s.readMem s.pc)).code = 2

/-- A Halted or Faulted machine has no next state (40_cycle.md R59). That `step` then answers a fault, not a refusal,
is the model's choice (log 5) and no part of this statement. -/
def Obligations.AStoppedMachineHasNoStep : Prop :=
  ∀ s : State, s.run ≠ .running → ∀ t, step s ≠ .next t

/-- A Running machine always has a step, and no instruction faults or is refused: whatever the bytes, the answer is a
next state (40_cycle.md R52, R60). -/
def Obligations.ARunningMachineAlwaysSteps : Prop :=
  ∀ s : State, s.run = .running → ∃ t, step s = .next t

/-- An anomaly records the pc and the opcode byte of its instruction, leaves pc there, and commits nothing of the
instruction unless it is PcOutOfRange (60_exceptions.md R88). -/
def Obligations.AnAnomalyCommitsNothing : Prop :=
  ∀ (s t : State) (r : FaultRecord), step s = .next t → t.run = .faulted r →
    r.fpc = s.pc ∧ r.fop = s.readMem s.pc ∧ t.pc = s.pc ∧
    ((∀ n, r.cause ≠ .pcOutOfRange n) →
      t.regs = s.regs ∧ t.fl = s.fl ∧ t.mem = s.mem ∧ t.out = s.out ∧ t.written = s.written)

/-- While the machine runs on, an instruction with S = 0 moves pc by its length, never past 255; one that halts keeps
pc (40_cycle.md R57, 46_halt.md R87). -/
def Obligations.PlainInstructionsAdvanceByTheirLength : Prop :=
  ∀ s t : State, s.run = .running → step s = .next t → opSetsPc (s.readMem s.pc) = false →
    (t.run = .running → t.pc.toNat = s.pc.toNat + opLen (s.readMem s.pc)) ∧ (t.run ≠ .running → t.pc = s.pc)

/-- The machine under any OPCODE_MAP that keeps R51 (30_encoding.md R41, R51, 40_cycle.md R54, R57): an instruction
whose opcode byte has bit 4 clear moves pc by what bits 7:6 of that byte say, plus 1, or stops with pc kept. The model
takes the length from the table's row (log 13); this says that it is the one the byte itself gives. -/
def Obligations.PlainInstructionsAdvanceByTheirLengthUnderAnyOpcodeMap : Prop :=
  ∀ (map : OpcodeMap) (s t : State), map.keepsFields → s.run = .running → stepWith map s = .next t →
    (s.readMem s.pc).getLsbD 4 = false →
    (t.run = .running → t.pc.toNat = s.pc.toNat + ((s.readMem s.pc).toNat / 64 + 1)) ∧
    (t.run ≠ .running → t.pc = s.pc)

/-! ### The instructions -/

/-- LDI (41_data_movement.md R68). -/
def Obligations.LdiLoadsItsLiteral : Prop :=
  ∀ (a b : Byte) (s : State),
    encode (.ldi a b) = [0x82#8, a, b] ∧
    (s.run = .running → s.pc.toNat ≤ 253 →
      (7 < a.toNat → StopsBy (.ldi a b) s (.badRegister a)) ∧
      ∀ r : RegIdx, r.val = a.toNat →
        ∃ t, exec (.ldi a b) s = .next t ∧ t.getReg r = b ∧ t.written.regWritten r = true ∧
          Frame [r] [] s t ∧ FlagsSame s t ∧ OutSame s t ∧ AdvancedOrPastEnd 3 s t)

/-- PRN (41_data_movement.md R69). -/
def Obligations.PrnEmitsTheRegister : Prop :=
  ∀ (a : Byte) (s : State),
    encode (.prn a) = [0x47#8, a] ∧
    (s.run = .running → s.pc.toNat ≤ 253 →
      AfterRead (.prn a) s a fun r =>
        ∃ t, exec (.prn a) s = .next t ∧ t.out = s.out ++ [s.getReg r] ∧
          Frame [] [] s t ∧ FlagsSame s t ∧ AdvancedBy 2 s t)

/-- PUSH (41_data_movement.md R70): the stored byte lies at SP - 1, and PUSH R7 stores the decremented SP. The checks
come in the order BadRegister, StackOutOfRange, UnwrittenRead. Memory in canonical form, which every step keeps. -/
def Obligations.PushStoresBelowTheStackPointer : Prop :=
  ∀ (a : Byte) (s : State),
    encode (.push a) = [0x45#8, a] ∧
    (s.run = .running → s.pc.toNat ≤ 253 → Memory.wf s.mem = true →
      (7 < a.toNat → StopsBy (.push a) s (.badRegister a)) ∧
      ∀ r : RegIdx, r.val = a.toNat →
        (s.sp = 0x00#8 → StopsBy (.push a) s (.stackOutOfRange (-1))) ∧
        (1 ≤ s.sp.toNat →
          (s.written.regWritten r = false → StopsBy (.push a) s (.unwrittenRead (.reg r))) ∧
          (s.written.regWritten r = true →
            ∃ t, exec (.push a) s = .next t ∧ t.sp.toNat = s.sp.toNat - 1 ∧
              (r ≠ 7 → t.readMem (s.sp - 1#8) = s.getReg r) ∧ (r = 7 → t.readMem (s.sp - 1#8) = s.sp - 1#8) ∧
              Frame [7] [s.sp - 1#8] s t ∧ FlagsSame s t ∧ OutSame s t ∧ AdvancedBy 2 s t)))

/-- POP (41_data_movement.md R71): the increment applies to SP after the register is written, so POP R7 leaves the
popped byte plus 1. -/
def Obligations.PopLoadsFromTheStackPointer : Prop :=
  ∀ (a : Byte) (s : State),
    encode (.pop a) = [0x46#8, a] ∧
    (s.run = .running → s.pc.toNat ≤ 253 →
      (7 < a.toNat → StopsBy (.pop a) s (.badRegister a)) ∧
      ∀ r : RegIdx, r.val = a.toNat →
        (r ≠ 7 →
          (s.sp = 0xFF#8 → StopsBy (.pop a) s (.stackOutOfRange 256)) ∧
          (s.sp.toNat < 255 →
            ∃ t, exec (.pop a) s = .next t ∧ t.getReg r = s.readMem s.sp ∧ t.sp.toNat = s.sp.toNat + 1 ∧
              t.written.regWritten r = true ∧
              Frame [r, 7] [] s t ∧ FlagsSame s t ∧ OutSame s t ∧ AdvancedBy 2 s t)) ∧
        (r = 7 →
          (s.readMem s.sp = 0xFF#8 → StopsBy (.pop a) s (.stackOutOfRange 256)) ∧
          ((s.readMem s.sp).toNat < 255 →
            ∃ t, exec (.pop a) s = .next t ∧ t.sp.toNat = (s.readMem s.sp).toNat + 1 ∧
              Frame [7] [] s t ∧ FlagsSame s t ∧ OutSame s t ∧ AdvancedBy 2 s t)))

/-- ADD (42_arithmetic.md R72). -/
def Obligations.AddIsTheSumModulo256 : Prop := BinaryArithmetic .add 0xA0#8 fun x y => x + y

/-- SUB (42_arithmetic.md R73); the difference is taken with 256 added, as R77 writes it. -/
def Obligations.SubIsTheDifferenceModulo256 : Prop := BinaryArithmetic .sub 0xA1#8 fun x y => x + 256 - y

/-- MUL (42_arithmetic.md R74). -/
def Obligations.MulIsTheProductModulo256 : Prop := BinaryArithmetic .mul 0xA2#8 fun x y => x * y

/-- INC (42_arithmetic.md R75). -/
def Obligations.IncAddsOneModulo256 : Prop := UnaryArithmetic .inc 0x65#8 fun x => x + 1

/-- DEC (42_arithmetic.md R76); 255 is added, as R77 writes it. -/
def Obligations.DecTakesOneModulo256 : Prop := UnaryArithmetic .dec 0x66#8 fun x => x + 255

/-- CMP (43_compare.md R78): the whole of FL is one of three values by an unsigned comparison, and no register is
written. -/
def Obligations.CmpWritesTheWholeFlagRegister : Prop :=
  ∀ (a b : Byte) (s : State),
    encode (.cmp a b) = [0xA7#8, a, b] ∧
    (s.run = .running → s.pc.toNat ≤ 253 →
      AfterRead (.cmp a b) s a fun ra => AfterRead (.cmp a b) s b fun rb =>
        ∃ t, exec (.cmp a b) s = .next t ∧
          (s.getReg ra = s.getReg rb → t.fl = 0b00000001#8) ∧
          ((s.getReg rb).toNat < (s.getReg ra).toNat → t.fl = 0b00000010#8) ∧
          ((s.getReg ra).toNat < (s.getReg rb).toNat → t.fl = 0b00000100#8) ∧
          t.written.flWritten = true ∧ Frame [] [] s t ∧ OutSame s t ∧ AdvancedOrPastEnd 3 s t)

/-- JMP (44_branch.md R80). -/
def Obligations.JmpGoesToTheRegister : Prop :=
  ∀ (a : Byte) (s : State),
    encode (.jmp a) = [0x54#8, a] ∧
    (s.run = .running → s.pc.toNat ≤ 253 →
      AfterRead (.jmp a) s a fun r =>
        ∃ t, exec (.jmp a) s = .next t ∧ JumpedTo (s.getReg r) t ∧
          Frame [] [] s t ∧ FlagsSame s t ∧ OutSame s t)

/-- JEQ (44_branch.md R81). -/
def Obligations.JeqBranchesOnEqual : Prop := ConditionalBranch .jeq 0x55#8 true

/-- JNE (44_branch.md R82). -/
def Obligations.JneBranchesOnNotEqual : Prop := ConditionalBranch .jne 0x56#8 false

/-- CALL (45_subroutine.md R84): the return address pc + 2 lies at SP - 1, and the target is read after the push, so
CALL R7 goes to the decremented SP. Memory in canonical form, which every step keeps. -/
def Obligations.CallPushesTheReturnAddress : Prop :=
  ∀ (a : Byte) (s : State),
    encode (.call a) = [0x50#8, a] ∧
    (s.run = .running → s.pc.toNat ≤ 253 → Memory.wf s.mem = true →
      (7 < a.toNat → StopsBy (.call a) s (.badRegister a)) ∧
      ∀ r : RegIdx, r.val = a.toNat →
        (s.sp = 0x00#8 → StopsBy (.call a) s (.stackOutOfRange (-1))) ∧
        (1 ≤ s.sp.toNat →
          (s.written.regWritten r = false → StopsBy (.call a) s (.unwrittenRead (.reg r))) ∧
          (s.written.regWritten r = true →
            ∃ t, exec (.call a) s = .next t ∧ t.sp.toNat = s.sp.toNat - 1 ∧
              (t.readMem (s.sp - 1#8)).toNat = s.pc.toNat + 2 ∧
              (r ≠ 7 → JumpedTo (s.getReg r) t) ∧ (r = 7 → JumpedTo (s.sp - 1#8) t) ∧
              Frame [7] [s.sp - 1#8] s t ∧ FlagsSame s t ∧ OutSame s t)))

/-- RET (45_subroutine.md R85). -/
def Obligations.RetPopsTheProgramCounter : Prop :=
  encode .ret = [0x11#8] ∧
  ∀ s : State, s.run = .running → s.pc.toNat ≤ 253 →
    (s.sp = 0xFF#8 → StopsBy .ret s (.stackOutOfRange 256)) ∧
    (s.sp.toNat < 255 →
      ∃ t, exec .ret s = .next t ∧ JumpedTo (s.readMem s.sp) t ∧ t.sp.toNat = s.sp.toNat + 1 ∧
        Frame [7] [] s t ∧ FlagsSame s t ∧ OutSame s t)

/-- HLT (46_halt.md R87): only the run state changes, and pc keeps the HLT's address. It is stated for `exec` on EVERY
state; on one that no fetch has prepared (not Running, or pc above 253) the spec executes nothing, and that `exec`
answers there, as if it had been fetched, is the model's choice (log 10). -/
def Obligations.HltChangesOnlyTheRunState : Prop :=
  encode .hlt = [0x01#8] ∧ ∀ s : State, exec .hlt s = .next { s with run := .halted }

/-! ### Instructions together -/

/-- PUSH then POP into a different register: that register gets the value, the source and SP are as before
(41_data_movement.md R71). Neither register is R7. -/
def Obligations.PushThenPopMovesTheValue : Prop :=
  ∀ (a b : Byte) (ra rb : RegIdx) (s : State), ra.val = a.toNat → rb.val = b.toNat → ra ≠ 7 → rb ≠ 7 → ra ≠ rb →
    s.run = .running → s.pc.toNat ≤ 251 → Memory.wf s.mem = true → 1 ≤ s.sp.toNat →
    s.written.regWritten ra = true →
    ∃ t u, exec (.push a) s = .next t ∧ exec (.pop b) t = .next u ∧
      u.getReg rb = s.getReg ra ∧ u.getReg ra = s.getReg ra ∧ u.sp = s.sp ∧
      Frame [rb] [s.sp - 1#8] s u ∧ AdvancedBy 4 s u

/-- CALL then RET: pc is the address after the CALL's two bytes, and SP is as before (45_subroutine.md R86). The CALL's
target may be any byte. Where it is 254 or 255 a step there raises FetchOutOfRange and executes no RET
(60_exceptions.md R89); that `exec` answers RET's effect there too is the model's choice (log 10). -/
def Obligations.CallThenRetComesBack : Prop :=
  ∀ (a : Byte) (r : RegIdx) (s : State), r.val = a.toNat → s.run = .running → s.pc.toNat ≤ 253 →
    Memory.wf s.mem = true → 1 ≤ s.sp.toNat → s.written.regWritten r = true →
    ∃ t u, exec (.call a) s = .next t ∧ exec .ret t = .next u ∧ AdvancedBy 2 s u ∧ u.sp = s.sp ∧
      Frame [] [s.sp - 1#8] s u

/-- The arithmetic laws, on the ALU (42_arithmetic.md R77, 40_cycle.md R63): each result, with `res_we` and not
`fl_we`, is the mathematical one modulo 256. -/
def Obligations.AluResultsAreModulo256 : Prop :=
  ∀ a b : Byte,
    ((aluDispatch .add a b).res = a + b ∧ (aluDispatch .add a b).res.toNat = (a.toNat + b.toNat) % 256) ∧
    ((aluDispatch .sub a b).res = a - b ∧ ((aluDispatch .sub a b).res.toNat : Int) = ((a.toNat : Int) - b.toNat) % 256) ∧
    ((aluDispatch .mul a b).res = a * b ∧ (aluDispatch .mul a b).res.toNat = (a.toNat * b.toNat) % 256) ∧
    ((aluDispatch .inc a b).res = a + 1#8 ∧ (aluDispatch .inc a b).res.toNat = (a.toNat + 1) % 256) ∧
    ((aluDispatch .dec a b).res = a - 1#8 ∧ ((aluDispatch .dec a b).res.toNat : Int) = ((a.toNat : Int) - 1) % 256) ∧
    ∀ m ∈ [Mnemonic.add, .sub, .mul, .inc, .dec], (aluDispatch m a b).resWe = true ∧ (aluDispatch m a b).flWe = false

/-- Executing a branch after a comparison: after `CMP A,B` has run on, JEQ is taken exactly when the compared values
are equal and JNE exactly when they are not (43_compare.md R79). -/
def Obligations.BranchAfterCompareFollowsEquality : Prop :=
  ∀ (a b c : Byte) (ra rb rc : RegIdx) (s : State), ra.val = a.toNat → rb.val = b.toNat → rc.val = c.toNat →
    s.run = .running → s.pc.toNat ≤ 250 → s.written.regWritten ra = true → s.written.regWritten rb = true →
    s.written.regWritten rc = true →
    ∃ t u w, exec (.cmp a b) s = .next t ∧ exec (.jeq c) t = .next u ∧ exec (.jne c) t = .next w ∧
      (s.getReg ra = s.getReg rb → JumpedTo (s.getReg rc) u ∧ AdvancedBy 5 s w) ∧
      (s.getReg ra ≠ s.getReg rb → AdvancedBy 5 s u ∧ JumpedTo (s.getReg rc) w)

/-! ### Who may change what -/

/-- No step but a CMP's changes FL or its written bit (10_state.md R16). -/
def Obligations.OnlyCmpChangesTheFlagRegister : Prop :=
  ∀ s t : State, step s = .next t → s.readMem s.pc ≠ 0xA7#8 → FlagsSame s t

/-- No step but a PUSH's or a CALL's changes memory, and those change at most the byte at SP - 1 (20_memory.md R28).
Memory in canonical form, which every step keeps. -/
def Obligations.OnlyPushAndCallChangeMemory : Prop :=
  ∀ (s t : State) (p : Byte), Memory.wf s.mem = true → step s = .next t → t.readMem p ≠ s.readMem p →
    (s.readMem s.pc = 0x45#8 ∨ s.readMem s.pc = 0x50#8) ∧ p = s.sp - 1#8

/-- A step leaves the output as it is, or is a PRN's and appends the value of the register its operand names
(10_state.md R20). -/
def Obligations.OnlyPrnWritesOutput : Prop :=
  ∀ s t : State, step s = .next t →
    t.out = s.out ∨
      (s.readMem s.pc = 0x47#8 ∧
        ∃ r : RegIdx, r.val = (s.readMem (s.pc + 1#8)).toNat ∧ t.out = s.out ++ [s.getReg r])

/-- A step halts exactly when it is a HLT's (10_state.md R19, 46_halt.md R87). -/
def Obligations.OnlyHltHalts : Prop :=
  ∀ s t : State, step s = .next t → (t.run = .halted ↔ s.pc.toNat ≤ 253 ∧ s.readMem s.pc = 0x01#8)

/-- A BadRegister is raised exactly for an operand the instruction uses that is above 7: a well-formed instruction
never raises it, its info is such an operand byte, and an ill-formed instruction always ends in an anomaly
(60_exceptions.md R91, 10_state.md R14). -/
def Obligations.BadRegisterIsForOperandsAboveSeven : Prop :=
  ∀ (i : Instr) (s t : State), s.run = .running → s.pc.toNat ≤ 253 → exec i s = .next t →
    (∀ r v, t.run = .faulted r → r.cause = .badRegister v → v ∈ i.operandBytes ∧ 7 < v.toNat ∧ i.wellFormed = false) ∧
    (i.wellFormed = false → ∃ r, t.run = .faulted r)

/-- An UnwrittenRead is raised under RESET_MODE = Unwritten only, for R0 to R6 or FL with a clear written bit, and
never by LDI, POP, RET or HLT; FL is read by JEQ and JNE alone (60_exceptions.md R92). -/
def Obligations.UnwrittenReadNeedsAClearBit : Prop :=
  ∀ (s t : State) (r : FaultRecord) (what : UnwrittenName), step s = .next t → t.run = .faulted r →
    r.cause = .unwrittenRead what →
    s.resetMode = .unwritten ∧ s.readMem s.pc ∉ [0x82#8, 0x46#8, 0x11#8, 0x01#8] ∧
    (∀ q, what = .reg q → s.written.regWritten q = false ∧ q ≠ 7) ∧
    (what = .fl → s.written.flWritten = false ∧ (s.readMem s.pc = 0x55#8 ∨ s.readMem s.pc = 0x56#8))

/-- StackOutOfRange is raised by PUSH or CALL at SP = 0, with info -1, or by POP or RET where the incremented SP would
be 256, with that info, and by nothing else (60_exceptions.md R93, R94). -/
def Obligations.StackOutOfRangeOnlyAtTheEnds : Prop :=
  ∀ (s t : State) (r : FaultRecord) (k : Int), step s = .next t → t.run = .faulted r → r.cause = .stackOutOfRange k →
    (k = -1 ∧ (s.readMem s.pc = 0x45#8 ∨ s.readMem s.pc = 0x50#8) ∧ s.sp = 0x00#8) ∨
    (k = 256 ∧ (s.readMem s.pc = 0x46#8 ∨ s.readMem s.pc = 0x11#8) ∧
      (s.sp = 0xFF#8 ∨
        (s.readMem s.pc = 0x46#8 ∧ s.readMem (s.pc + 1#8) = 0x07#8 ∧ s.readMem s.sp = 0xFF#8)))

/-- PcOutOfRange is raised by the 3-byte instructions at pc = 253 alone, with info 256, and pc stays there
(60_exceptions.md R95). -/
def Obligations.PcOutOfRangeOnlyForThreeBytesAt253 : Prop :=
  ∀ (s t : State) (r : FaultRecord) (n : Nat), step s = .next t → t.run = .faulted r → r.cause = .pcOutOfRange n →
    n = 256 ∧ s.pc = 253#8 ∧ t.pc = 253#8 ∧ s.readMem s.pc ∈ [0x82#8, 0xA0#8, 0xA1#8, 0xA2#8, 0xA7#8]

/-- No step clears a written bit or changes the RESET_MODE, and R7 always counts as written (10_state.md R22). -/
def Obligations.WrittenBitsAreNeverCleared : Prop :=
  ∀ s t : State, step s = .next t →
    t.resetMode = s.resetMode ∧
    (∀ q, s.written.regWritten q = true → t.written.regWritten q = true) ∧
    (s.written.flWritten = true → t.written.flWritten = true) ∧ t.written.regWritten 7 = true

/-- What the latches hold before a step cannot be seen in any observation of the run that follows (10_state.md R21). -/
def Obligations.LatchesAreNotObservable : Prop :=
  ∀ (s : State) (x y z : Byte) (k : Nat),
    (runSteps k { s with latchIR := x, latchA := y, latchB := z }).observe = (runSteps k s).observe

/-! ### Memory, reset and the invariant -/

/-- A byte reads as the last value written to it, and a write leaves every other byte alone (20_memory.md R31). Memory
in canonical form, which every step keeps. -/
def Obligations.AReadGivesTheLastWrite : Prop :=
  ∀ (s : State) (p v : Byte), Memory.wf s.mem = true →
    (s.writeMem p v).readMem p = v ∧ ∀ q, q ≠ p → (s.writeMem p v).readMem q = s.readMem q

/-- In canonical form, memories that read alike are equal (derived from 10_state.md R18). -/
def Obligations.CanonicalMemoriesThatReadAlikeAreEqual : Prop :=
  ∀ m m' : Memory, Memory.wf m = true → Memory.wf m' = true →
    (∀ n, n < 256 → Memory.readCell m n = Memory.readCell m' n) → m = m'

/-- A byte stored in the fetch window is what the next fetch latches (20_memory.md R39). -/
def Obligations.TheNextFetchSeesAStore : Prop :=
  ∀ (s : State) (v : Byte), Memory.wf s.mem = true → s.pc.toNat ≤ 253 →
    (∃ t, (s.writeMem s.pc v).fetch = .ok t ∧ t.latchIR = v) ∧
    (∃ t, (s.writeMem (s.pc + 1#8) v).fetch = .ok t ∧ t.latchA = v) ∧
    (∃ t, (s.writeMem (s.pc + 2#8) v).fetch = .ok t ∧ t.latchB = v)

/-- Reset with an image, in either RESET_MODE (70_reset_and_hazards.md R108). -/
def Obligations.BootPlacesTheImage : Prop :=
  ∀ (mode : Config.ResetMode) (image : List Byte),
    (image.length ≤ 256 →
      ∃ s, boot mode image = .next s ∧
        (∀ p : Byte, s.readMem p = image.getD p.toNat 0x00#8) ∧
        s.sp = 0xF4#8 ∧ s.pc = 0x00#8 ∧ s.run = .running ∧ s.out = [] ∧ s.resetMode = mode ∧
        (mode = .zero → s.fl = 0x00#8 ∧ s.written.flWritten = true ∧
          ∀ q : RegIdx, q ≠ 7 → s.getReg q = 0x00#8 ∧ s.written.regWritten q = true) ∧
        (mode = .unwritten → s.written.flWritten = false ∧ ∀ q : RegIdx, q ≠ 7 → s.written.regWritten q = false)) ∧
    (256 < image.length → boot mode image = .refused (.imageTooLarge image.length))

/-- The invariant holds after reset in either RESET_MODE; State.reset takes Zero (the model's choice, log 1). -/
def Obligations.ResetMeetsTheInvariant : Prop :=
  State.reset.Inv ∧ ∀ mode, (State.resetIn mode).Inv

/-- Every step keeps the invariant: memory stays in canonical form, FL stays a legal value, and a Faulted record fits
its state (10_state.md R16, R17, R18, 60_exceptions.md R88). -/
def Obligations.EveryStepKeepsTheInvariant : Prop :=
  ∀ s t : State, s.Inv → step s = .next t → t.Inv
end

