-- ==== Sys2Proof/Laws/PerInstr.lean ====
section
/-! SUPPORT. The family Layout: the opcode byte's own bits tell how many operand bytes the encoder lays after it
and whether the instruction sets pc (30_encoding.md R47, R51). -/

namespace Sys2Proof.Laws.Layout

/-- Under a map that keeps R51, the S bit of an opcode byte is the row's S (30_encoding.md R51). -/
theorem opSetsPc_of_keepsFields {map : OpcodeMap} (h : map.keepsFields) (m : Mnemonic) : opSetsPc (map m) = m.setsPc :=
  (h m).2

/-- Under a map that keeps R51, the length an opcode byte gives is the row's length (30_encoding.md R47, R51). -/
theorem opLen_of_keepsFields {map : OpcodeMap} (h : map.keepsFields) (m : Mnemonic) : opLen (map m) = m.len :=
  congrArg (· + 1) (h m).1

/-- Under every opcode map that keeps R51, the encoding of `i` is as long as its opcode byte says, and S is set exactly
for the instructions that set pc. -/
def Statement (i : Instr) : Prop :=
  ∀ map : OpcodeMap, map.keepsFields →
    (encodeWith map i).length = opLen (map i.mnemonic) ∧ opSetsPc (map i.mnemonic) = i.mnemonic.setsPc

theorem hlt : Statement .hlt := fun _ h => ⟨(opLen_of_keepsFields h .hlt).symm, (h .hlt).2⟩
theorem ldi (a b : Byte) : Statement (.ldi a b) := fun _ h => ⟨(opLen_of_keepsFields h .ldi).symm, (h .ldi).2⟩
theorem prn (a : Byte) : Statement (.prn a) := fun _ h => ⟨(opLen_of_keepsFields h .prn).symm, (h .prn).2⟩
theorem push (a : Byte) : Statement (.push a) := fun _ h => ⟨(opLen_of_keepsFields h .push).symm, (h .push).2⟩
theorem pop (a : Byte) : Statement (.pop a) := fun _ h => ⟨(opLen_of_keepsFields h .pop).symm, (h .pop).2⟩
theorem call (a : Byte) : Statement (.call a) := fun _ h => ⟨(opLen_of_keepsFields h .call).symm, (h .call).2⟩
theorem ret : Statement .ret := fun _ h => ⟨(opLen_of_keepsFields h .ret).symm, (h .ret).2⟩
theorem add (a b : Byte) : Statement (.add a b) := fun _ h => ⟨(opLen_of_keepsFields h .add).symm, (h .add).2⟩
theorem sub (a b : Byte) : Statement (.sub a b) := fun _ h => ⟨(opLen_of_keepsFields h .sub).symm, (h .sub).2⟩
theorem mul (a b : Byte) : Statement (.mul a b) := fun _ h => ⟨(opLen_of_keepsFields h .mul).symm, (h .mul).2⟩
theorem inc (a : Byte) : Statement (.inc a) := fun _ h => ⟨(opLen_of_keepsFields h .inc).symm, (h .inc).2⟩
theorem dec (a : Byte) : Statement (.dec a) := fun _ h => ⟨(opLen_of_keepsFields h .dec).symm, (h .dec).2⟩
theorem cmp (a b : Byte) : Statement (.cmp a b) := fun _ h => ⟨(opLen_of_keepsFields h .cmp).symm, (h .cmp).2⟩
theorem jmp (a : Byte) : Statement (.jmp a) := fun _ h => ⟨(opLen_of_keepsFields h .jmp).symm, (h .jmp).2⟩
theorem jeq (a : Byte) : Statement (.jeq a) := fun _ h => ⟨(opLen_of_keepsFields h .jeq).symm, (h .jeq).2⟩
theorem jne (a : Byte) : Statement (.jne a) := fun _ h => ⟨(opLen_of_keepsFields h .jne).symm, (h .jne).2⟩

end Sys2Proof.Laws.Layout
end

