-- ==== Sys2Proof/Laws/Decode.lean ====
section
/-! SUPPORT. Small lemmas of the decoder and the encoder. -/

namespace Sys2Proof

theorem Mnemonic.mem_all (m : Mnemonic) : m ∈ Mnemonic.all := by cases m <;> decide

/-- A looked-up mnemonic has the byte it was looked up by. -/
theorem lookupOpcode_sound {map : OpcodeMap} {ir : Byte} {m : Mnemonic} (h : lookupOpcode map ir = some m) :
    map m = ir := by
  have := List.find?_some h
  simpa using this

@[simp] theorem Instr.mnemonic_build (m : Mnemonic) (a b : Byte) : (Instr.build m a b).mnemonic = m := by
  cases m <;> rfl

theorem decodeWith_eq_ok_iff {map : OpcodeMap} {ir a b : Byte} {i : Instr} :
    decodeWith map ir a b = .ok i ↔ ∃ m, lookupOpcode map ir = some m ∧ i = Instr.build m a b := by
  unfold decodeWith
  cases lookupOpcode map ir <;> simp [@eq_comm _ i]

theorem decodeWith_eq_error_iff {map : OpcodeMap} {ir a b : Byte} {e : DecodeError} :
    decodeWith map ir a b = .error e ↔ lookupOpcode map ir = none ∧ e = .illegalOpcode ir := by
  unfold decodeWith
  cases lookupOpcode map ir <;> simp [@eq_comm _ e]

end Sys2Proof
end

