-- ==== Sys2Proof/Laws/Memory.lean ====
section
/-! SUPPORT. Every memory operation keeps the canonical form `Memory.wf`. -/

namespace Sys2Proof.Machine

@[simp] theorem Memory.readCell_nil (n : Nat) : Memory.readCell [] n = Memory.unlisted := rfl

@[simp] theorem Memory.wf_nil : Memory.wf [] = true := rfl

theorem Memory.wfAbove_cons (lo : Option Nat) (k : Nat) (v : Byte) (m : Memory) :
    Memory.wfAbove lo ((k, v) :: m) = true ↔
      (∀ l, lo = some l → l < k) ∧ k < 256 ∧ v ≠ Memory.unlisted ∧ Memory.wfAbove (some k) m = true := by
  cases lo <;> simp [Memory.wfAbove, and_assoc]

/-- A lower bound may be lowered. -/
theorem Memory.wfAbove_weaken {lo lo' : Option Nat} {m : Memory} (h : Memory.wfAbove lo m = true)
    (hl : ∀ l', lo' = some l' → ∃ l, lo = some l ∧ l' ≤ l) : Memory.wfAbove lo' m = true := by
  cases m with
  | nil => rfl
  | cons c m =>
    obtain ⟨k, v⟩ := c
    rw [Memory.wfAbove_cons] at h ⊢
    refine ⟨fun l' e => ?_, h.2⟩
    obtain ⟨l, e', hle⟩ := hl l' e
    exact Nat.lt_of_le_of_lt hle (h.1 l e')

theorem Memory.consCell_wfAbove {lo : Option Nat} {n : Nat} {v : Byte} {m : Memory}
    (hlo : ∀ l, lo = some l → l < n) (hn : n < 256) (hm : Memory.wfAbove (some n) m = true) :
    Memory.wfAbove lo (Memory.consCell n v m) = true := by
  unfold Memory.consCell
  split
  · exact Memory.wfAbove_weaken hm fun l e => ⟨n, rfl, Nat.le_of_lt (hlo l e)⟩
  · rename_i hv
    exact (Memory.wfAbove_cons ..).2 ⟨hlo, hn, hv, hm⟩

theorem Memory.writeCell_wfAbove {lo : Option Nat} {m : Memory} {n : Nat} (v : Byte)
    (hm : Memory.wfAbove lo m = true) (hlo : ∀ l, lo = some l → l < n) (hn : n < 256) :
    Memory.wfAbove lo (Memory.writeCell m n v) = true := by
  induction m generalizing lo with
  | nil => exact Memory.consCell_wfAbove hlo hn rfl
  | cons c m ih =>
    obtain ⟨k, w⟩ := c
    obtain ⟨hk, hk256, hw, hrest⟩ := (Memory.wfAbove_cons ..).1 hm
    unfold Memory.writeCell
    split
    · rename_i hnk
      exact Memory.consCell_wfAbove hlo hn
        ((Memory.wfAbove_cons ..).2 ⟨fun l e => by cases e; exact hnk, hk256, hw, hrest⟩)
    · split
      · rename_i hnk
        subst hnk
        exact Memory.consCell_wfAbove hlo hn hrest
      · refine (Memory.wfAbove_cons ..).2 ⟨hk, hk256, hw, ih hrest fun l e => ?_⟩
        cases e
        omega

/-- Writing a byte keeps the canonical form. -/
theorem Memory.writeCell_wf {m : Memory} {n : Nat} (v : Byte) (hm : Memory.wf m = true) (hn : n < 256) :
    Memory.wf (Memory.writeCell m n v) = true :=
  Memory.writeCell_wfAbove v hm (fun _ e => nomatch e) hn

/-- MemWrite keeps the canonical form. -/
theorem State.writeMem_wf {s : State} (a v : Byte) (hm : Memory.wf s.mem = true) :
    Memory.wf (s.writeMem a v).mem = true :=
  Memory.writeCell_wf v hm a.isLt

/-- Loading an image that fits keeps the canonical form. -/
theorem Memory.load_wf {m : Memory} {n : Nat} {image : List Byte} (hm : Memory.wf m = true)
    (hlen : n + image.length ≤ 256) : Memory.wf (Memory.load m n image) = true := by
  induction image generalizing m n with
  | nil => exact hm
  | cons v image ih =>
    simp only [List.length_cons] at hlen
    exact ih (Memory.writeCell_wf v hm (by omega)) (by omega)

/-- In a canonical list nothing at or below the lower bound is listed. -/
theorem Memory.readCell_of_wfAbove {m : Memory} {l n : Nat} (hm : Memory.wfAbove (some l) m = true) (hn : n ≤ l) :
    Memory.readCell m n = Memory.unlisted := by
  induction m generalizing l with
  | nil => rfl
  | cons c m ih =>
    obtain ⟨k, v⟩ := c
    obtain ⟨hk, -, -, hrest⟩ := (Memory.wfAbove_cons ..).1 hm
    have hlk := hk l rfl
    simp only [Memory.readCell, if_neg (by omega : ¬ k = n)]
    exact ih hrest (by omega)

end Sys2Proof.Machine
end

