-- ==== Sys2Proof/Laws/State.lean ====
section
/-! SUPPORT. One lemma per field per update of State, true by rfl, so that no later proof unfolds a record update. -/

namespace Sys2Proof.Machine

/-! ### setReg -/

@[simp] theorem State.setReg_mem (s : State) (r : RegIdx) (v : Byte) : (s.setReg r v).mem = s.mem := rfl
@[simp] theorem State.setReg_regs (s : State) (r : RegIdx) (v : Byte) : (s.setReg r v).regs = s.regs.set r v := rfl
@[simp] theorem State.setReg_pc (s : State) (r : RegIdx) (v : Byte) : (s.setReg r v).pc = s.pc := rfl
@[simp] theorem State.setReg_fl (s : State) (r : RegIdx) (v : Byte) : (s.setReg r v).fl = s.fl := rfl
@[simp] theorem State.setReg_run (s : State) (r : RegIdx) (v : Byte) : (s.setReg r v).run = s.run := rfl
@[simp] theorem State.setReg_out (s : State) (r : RegIdx) (v : Byte) : (s.setReg r v).out = s.out := rfl
@[simp] theorem State.setReg_latchIR (s : State) (r : RegIdx) (v : Byte) : (s.setReg r v).latchIR = s.latchIR := rfl
@[simp] theorem State.setReg_latchA (s : State) (r : RegIdx) (v : Byte) : (s.setReg r v).latchA = s.latchA := rfl
@[simp] theorem State.setReg_latchB (s : State) (r : RegIdx) (v : Byte) : (s.setReg r v).latchB = s.latchB := rfl
@[simp] theorem State.setReg_written (s : State) (r : RegIdx) (v : Byte) : (s.setReg r v).written = s.written.markReg r := rfl

/-! ### setFL -/

@[simp] theorem State.setFL_mem (s : State) (v : Byte) : (s.setFL v).mem = s.mem := rfl
@[simp] theorem State.setFL_regs (s : State) (v : Byte) : (s.setFL v).regs = s.regs := rfl
@[simp] theorem State.setFL_pc (s : State) (v : Byte) : (s.setFL v).pc = s.pc := rfl
@[simp] theorem State.setFL_fl (s : State) (v : Byte) : (s.setFL v).fl = v := rfl
@[simp] theorem State.setFL_run (s : State) (v : Byte) : (s.setFL v).run = s.run := rfl
@[simp] theorem State.setFL_out (s : State) (v : Byte) : (s.setFL v).out = s.out := rfl
@[simp] theorem State.setFL_latchIR (s : State) (v : Byte) : (s.setFL v).latchIR = s.latchIR := rfl
@[simp] theorem State.setFL_latchA (s : State) (v : Byte) : (s.setFL v).latchA = s.latchA := rfl
@[simp] theorem State.setFL_latchB (s : State) (v : Byte) : (s.setFL v).latchB = s.latchB := rfl
@[simp] theorem State.setFL_written (s : State) (v : Byte) : (s.setFL v).written = s.written.markFL := rfl

/-! ### writeMem -/

@[simp] theorem State.writeMem_mem (s : State) (a v : Byte) : (s.writeMem a v).mem = Memory.writeCell s.mem a.toNat v := rfl
@[simp] theorem State.writeMem_regs (s : State) (a v : Byte) : (s.writeMem a v).regs = s.regs := rfl
@[simp] theorem State.writeMem_pc (s : State) (a v : Byte) : (s.writeMem a v).pc = s.pc := rfl
@[simp] theorem State.writeMem_fl (s : State) (a v : Byte) : (s.writeMem a v).fl = s.fl := rfl
@[simp] theorem State.writeMem_run (s : State) (a v : Byte) : (s.writeMem a v).run = s.run := rfl
@[simp] theorem State.writeMem_out (s : State) (a v : Byte) : (s.writeMem a v).out = s.out := rfl
@[simp] theorem State.writeMem_latchIR (s : State) (a v : Byte) : (s.writeMem a v).latchIR = s.latchIR := rfl
@[simp] theorem State.writeMem_latchA (s : State) (a v : Byte) : (s.writeMem a v).latchA = s.latchA := rfl
@[simp] theorem State.writeMem_latchB (s : State) (a v : Byte) : (s.writeMem a v).latchB = s.latchB := rfl
@[simp] theorem State.writeMem_written (s : State) (a v : Byte) : (s.writeMem a v).written = s.written := rfl

/-! ### setPc -/

@[simp] theorem State.setPc_mem (s : State) (t : Byte) : (s.setPc t).mem = s.mem := rfl
@[simp] theorem State.setPc_regs (s : State) (t : Byte) : (s.setPc t).regs = s.regs := rfl
@[simp] theorem State.setPc_pc (s : State) (t : Byte) : (s.setPc t).pc = t := rfl
@[simp] theorem State.setPc_fl (s : State) (t : Byte) : (s.setPc t).fl = s.fl := rfl
@[simp] theorem State.setPc_run (s : State) (t : Byte) : (s.setPc t).run = s.run := rfl
@[simp] theorem State.setPc_out (s : State) (t : Byte) : (s.setPc t).out = s.out := rfl
@[simp] theorem State.setPc_latchIR (s : State) (t : Byte) : (s.setPc t).latchIR = s.latchIR := rfl
@[simp] theorem State.setPc_latchA (s : State) (t : Byte) : (s.setPc t).latchA = s.latchA := rfl
@[simp] theorem State.setPc_latchB (s : State) (t : Byte) : (s.setPc t).latchB = s.latchB := rfl
@[simp] theorem State.setPc_written (s : State) (t : Byte) : (s.setPc t).written = s.written := rfl

/-! ### setRun -/

@[simp] theorem State.setRun_mem (s : State) (r : RunState) : (s.setRun r).mem = s.mem := rfl
@[simp] theorem State.setRun_regs (s : State) (r : RunState) : (s.setRun r).regs = s.regs := rfl
@[simp] theorem State.setRun_pc (s : State) (r : RunState) : (s.setRun r).pc = s.pc := rfl
@[simp] theorem State.setRun_fl (s : State) (r : RunState) : (s.setRun r).fl = s.fl := rfl
@[simp] theorem State.setRun_run (s : State) (r : RunState) : (s.setRun r).run = r := rfl
@[simp] theorem State.setRun_out (s : State) (r : RunState) : (s.setRun r).out = s.out := rfl
@[simp] theorem State.setRun_latchIR (s : State) (r : RunState) : (s.setRun r).latchIR = s.latchIR := rfl
@[simp] theorem State.setRun_latchA (s : State) (r : RunState) : (s.setRun r).latchA = s.latchA := rfl
@[simp] theorem State.setRun_latchB (s : State) (r : RunState) : (s.setRun r).latchB = s.latchB := rfl
@[simp] theorem State.setRun_written (s : State) (r : RunState) : (s.setRun r).written = s.written := rfl

/-! ### emit -/

@[simp] theorem State.emit_mem (s : State) (v : Byte) : (s.emit v).mem = s.mem := rfl
@[simp] theorem State.emit_regs (s : State) (v : Byte) : (s.emit v).regs = s.regs := rfl
@[simp] theorem State.emit_pc (s : State) (v : Byte) : (s.emit v).pc = s.pc := rfl
@[simp] theorem State.emit_fl (s : State) (v : Byte) : (s.emit v).fl = s.fl := rfl
@[simp] theorem State.emit_run (s : State) (v : Byte) : (s.emit v).run = s.run := rfl
@[simp] theorem State.emit_out (s : State) (v : Byte) : (s.emit v).out = s.out ++ [v] := rfl
@[simp] theorem State.emit_latchIR (s : State) (v : Byte) : (s.emit v).latchIR = s.latchIR := rfl
@[simp] theorem State.emit_latchA (s : State) (v : Byte) : (s.emit v).latchA = s.latchA := rfl
@[simp] theorem State.emit_latchB (s : State) (v : Byte) : (s.emit v).latchB = s.latchB := rfl
@[simp] theorem State.emit_written (s : State) (v : Byte) : (s.emit v).written = s.written := rfl

/-! ### latch -/

@[simp] theorem State.latch_mem (s : State) : (s.latch).mem = s.mem := rfl
@[simp] theorem State.latch_regs (s : State) : (s.latch).regs = s.regs := rfl
@[simp] theorem State.latch_pc (s : State) : (s.latch).pc = s.pc := rfl
@[simp] theorem State.latch_fl (s : State) : (s.latch).fl = s.fl := rfl
@[simp] theorem State.latch_run (s : State) : (s.latch).run = s.run := rfl
@[simp] theorem State.latch_out (s : State) : (s.latch).out = s.out := rfl
@[simp] theorem State.latch_latchIR (s : State) : (s.latch).latchIR = s.readMem s.pc := rfl
@[simp] theorem State.latch_latchA (s : State) : (s.latch).latchA = s.readMem (s.pc + 1#8) := rfl
@[simp] theorem State.latch_latchB (s : State) : (s.latch).latchB = s.readMem (s.pc + 2#8) := rfl
@[simp] theorem State.latch_written (s : State) : (s.latch).written = s.written := rfl

/-! ### raise -/

@[simp] theorem State.raise_mem (s : State) (c : Anomaly) : (s.raise c).mem = s.mem := rfl
@[simp] theorem State.raise_regs (s : State) (c : Anomaly) : (s.raise c).regs = s.regs := rfl
@[simp] theorem State.raise_pc (s : State) (c : Anomaly) : (s.raise c).pc = s.pc := rfl
@[simp] theorem State.raise_fl (s : State) (c : Anomaly) : (s.raise c).fl = s.fl := rfl
@[simp] theorem State.raise_run (s : State) (c : Anomaly) : (s.raise c).run = .faulted { cause := c, fpc := s.pc, fop := s.faultOpcode c } := rfl
@[simp] theorem State.raise_out (s : State) (c : Anomaly) : (s.raise c).out = s.out := rfl
@[simp] theorem State.raise_latchIR (s : State) (c : Anomaly) : (s.raise c).latchIR = s.latchIR := rfl
@[simp] theorem State.raise_latchA (s : State) (c : Anomaly) : (s.raise c).latchA = s.latchA := rfl
@[simp] theorem State.raise_latchB (s : State) (c : Anomaly) : (s.raise c).latchB = s.latchB := rfl
@[simp] theorem State.raise_written (s : State) (c : Anomaly) : (s.raise c).written = s.written := rfl

/-! ### reads through an update -/

@[simp] theorem State.setReg_readMem (s : State) (r : RegIdx) (v : Byte) (p : Byte) : (s.setReg r v).readMem p = s.readMem p := rfl
@[simp] theorem State.setFL_getReg (s : State) (v : Byte) (q : RegIdx) : (s.setFL v).getReg q = s.getReg q := rfl
@[simp] theorem State.setFL_sp (s : State) (v : Byte) : (s.setFL v).sp = s.sp := rfl
@[simp] theorem State.setFL_readMem (s : State) (v : Byte) (p : Byte) : (s.setFL v).readMem p = s.readMem p := rfl
@[simp] theorem State.writeMem_getReg (s : State) (a v : Byte) (q : RegIdx) : (s.writeMem a v).getReg q = s.getReg q := rfl
@[simp] theorem State.writeMem_sp (s : State) (a v : Byte) : (s.writeMem a v).sp = s.sp := rfl
@[simp] theorem State.writeMem_resetMode (s : State) (a v : Byte) : (s.writeMem a v).resetMode = s.resetMode := rfl
@[simp] theorem State.setPc_getReg (s : State) (t : Byte) (q : RegIdx) : (s.setPc t).getReg q = s.getReg q := rfl
@[simp] theorem State.setPc_sp (s : State) (t : Byte) : (s.setPc t).sp = s.sp := rfl
@[simp] theorem State.setPc_readMem (s : State) (t : Byte) (p : Byte) : (s.setPc t).readMem p = s.readMem p := rfl
@[simp] theorem State.setPc_resetMode (s : State) (t : Byte) : (s.setPc t).resetMode = s.resetMode := rfl
@[simp] theorem State.setRun_getReg (s : State) (r : RunState) (q : RegIdx) : (s.setRun r).getReg q = s.getReg q := rfl
@[simp] theorem State.setRun_sp (s : State) (r : RunState) : (s.setRun r).sp = s.sp := rfl
@[simp] theorem State.setRun_readMem (s : State) (r : RunState) (p : Byte) : (s.setRun r).readMem p = s.readMem p := rfl
@[simp] theorem State.setRun_resetMode (s : State) (r : RunState) : (s.setRun r).resetMode = s.resetMode := rfl
@[simp] theorem State.emit_getReg (s : State) (v : Byte) (q : RegIdx) : (s.emit v).getReg q = s.getReg q := rfl
@[simp] theorem State.emit_sp (s : State) (v : Byte) : (s.emit v).sp = s.sp := rfl
@[simp] theorem State.emit_readMem (s : State) (v : Byte) (p : Byte) : (s.emit v).readMem p = s.readMem p := rfl
@[simp] theorem State.emit_resetMode (s : State) (v : Byte) : (s.emit v).resetMode = s.resetMode := rfl
@[simp] theorem State.latch_getReg (s : State) (q : RegIdx) : (s.latch).getReg q = s.getReg q := rfl
@[simp] theorem State.latch_sp (s : State) : (s.latch).sp = s.sp := rfl
@[simp] theorem State.latch_readMem (s : State) (p : Byte) : (s.latch).readMem p = s.readMem p := rfl
@[simp] theorem State.latch_resetMode (s : State) : (s.latch).resetMode = s.resetMode := rfl
@[simp] theorem State.raise_getReg (s : State) (c : Anomaly) (q : RegIdx) : (s.raise c).getReg q = s.getReg q := rfl
@[simp] theorem State.raise_sp (s : State) (c : Anomaly) : (s.raise c).sp = s.sp := rfl
@[simp] theorem State.raise_readMem (s : State) (c : Anomaly) (p : Byte) : (s.raise c).readMem p = s.readMem p := rfl
@[simp] theorem State.raise_resetMode (s : State) (c : Anomaly) : (s.raise c).resetMode = s.resetMode := rfl

/-! ### the written bits -/

@[simp] theorem WrittenBits.flWritten_markReg (w : WrittenBits) (r : RegIdx) :
    (w.markReg r).flWritten = w.flWritten := by
  cases w <;> simp only [WrittenBits.markReg]
  split <;> rfl

@[simp] theorem WrittenBits.flWritten_markFL (w : WrittenBits) : w.markFL.flWritten = true := by
  cases w <;> rfl

@[simp] theorem WrittenBits.regWritten_markFL (w : WrittenBits) (q : RegIdx) :
    w.markFL.regWritten q = w.regWritten q := by
  cases w <;> rfl

@[simp] theorem WrittenBits.regWritten_spIndex (w : WrittenBits) : w.regWritten 7 = true := by
  cases w <;> rfl

theorem WrittenBits.regWritten_markReg (w : WrittenBits) (r q : RegIdx) :
    (w.markReg r).regWritten q = if q = r then true else w.regWritten q := by
  cases w with
  | absent => simp [WrittenBits.markReg, WrittenBits.regWritten]
  | present regs fl =>
    have hcomm : r.val = q.val ↔ q.val = r.val := ⟨Eq.symm, Eq.symm⟩
    by_cases hr : r.val < 7 <;> by_cases hq : q.val < 7 <;>
      simp [WrittenBits.markReg, WrittenBits.regWritten, hq, hr, Vector.getElem_set, Fin.ext_iff, hcomm]
    omega

@[simp] theorem State.setReg_resetMode (s : State) (r : RegIdx) (v : Byte) :
    (s.setReg r v).resetMode = s.resetMode := by
  unfold State.resetMode
  rw [State.setReg_written]
  cases s.written <;> simp only [WrittenBits.markReg]
  by_cases hr : r.val < 7 <;> simp [hr]

@[simp] theorem State.setFL_resetMode (s : State) (v : Byte) : (s.setFL v).resetMode = s.resetMode := by
  cases h : s.written <;> simp [State.resetMode, h, WrittenBits.markFL]

/-! ### reads through a register write -/

theorem State.getReg_setReg (s : State) (r q : RegIdx) (v : Byte) :
    (s.setReg r v).getReg q = if q = r then v else s.getReg q := by
  have hcomm : r.val = q.val ↔ q.val = r.val := ⟨Eq.symm, Eq.symm⟩
  simp [State.getReg, Vector.getElem_set, Fin.ext_iff, hcomm]

@[simp] theorem State.getReg_setReg_self (s : State) (r : RegIdx) (v : Byte) : (s.setReg r v).getReg r = v := by
  simp [State.getReg_setReg]

theorem State.getReg_setReg_ne (s : State) {r q : RegIdx} (v : Byte) (h : q ≠ r) :
    (s.setReg r v).getReg q = s.getReg q := by
  simp [State.getReg_setReg, h]

@[simp] theorem State.sp_setReg_sp (s : State) (v : Byte) : (s.setReg 7 v).sp = v := by
  simp [State.sp]

theorem State.sp_setReg_ne (s : State) {r : RegIdx} (v : Byte) (h : r ≠ 7) : (s.setReg r v).sp = s.sp :=
  State.getReg_setReg_ne s v (Ne.symm h)

end Sys2Proof.Machine
end

