-- ==== Sys2Proof/Laws/Operands.lean ====
section
/-! SUPPORT. What the checked operand reads can answer. -/

namespace Sys2Proof.Machine

theorem idx_eq_ok_iff {i : Byte} {r : RegIdx} : idx i = .ok r ↔ r.val = i.toNat := by
  unfold idx
  split
  · rw [Except.ok.injEq, Fin.ext_iff]
    exact ⟨Eq.symm, Eq.symm⟩
  · rename_i h
    simp only [reduceCtorEq, false_iff]
    have hr : r.val < 8 := r.isLt
    simp only [Config.nRegs] at h
    omega

theorem idx_eq_error_iff {i : Byte} {c : Anomaly} : idx i = .error c ↔ 7 < i.toNat ∧ c = .badRegister i := by
  unfold idx
  split
  · rename_i h
    simp only [reduceCtorEq, false_iff, Config.nRegs] at h ⊢
    omega
  · rename_i h
    simp only [Except.error.injEq, Config.nRegs] at h ⊢
    exact ⟨fun e => ⟨by omega, e.symm⟩, fun e => e.2.symm⟩

theorem State.readReg_eq_ok_iff {s : State} {r : RegIdx} {v : Byte} :
    s.readReg r = .ok v ↔ s.written.regWritten r = true ∧ s.getReg r = v := by
  unfold State.readReg
  split <;> simp_all

theorem State.readReg_eq_error_iff {s : State} {r : RegIdx} {c : Anomaly} :
    s.readReg r = .error c ↔ s.written.regWritten r = false ∧ c = .unwrittenRead (.reg r) := by
  unfold State.readReg
  split <;> simp_all [@eq_comm _ c]

theorem State.rd_of_idx {s : State} {i : Byte} {r : RegIdx} (h : idx i = .ok r) : s.rd i = s.readReg r := by
  simp [State.rd, h, bind, Except.bind]

theorem State.rd_eq_ok_iff {s : State} {i v : Byte} :
    s.rd i = .ok v ↔ ∃ r : RegIdx, r.val = i.toNat ∧ s.written.regWritten r = true ∧ s.getReg r = v := by
  simp only [← idx_eq_ok_iff, ← State.readReg_eq_ok_iff]
  cases h : idx i <;> simp [State.rd, h, bind, Except.bind]

theorem State.rd_eq_error_iff {s : State} {i : Byte} {c : Anomaly} :
    s.rd i = .error c ↔ (7 < i.toNat ∧ c = .badRegister i) ∨
      ∃ r : RegIdx, r.val = i.toNat ∧ s.written.regWritten r = false ∧ c = .unwrittenRead (.reg r) := by
  simp only [← idx_eq_ok_iff, ← idx_eq_error_iff, ← State.readReg_eq_error_iff]
  cases h : idx i <;> simp [State.rd, h, bind, Except.bind]

theorem State.rdFL_eq_ok_iff {s : State} {v : Byte} :
    s.rdFL = .ok v ↔ s.written.flWritten = true ∧ s.fl = v := by
  unfold State.rdFL
  split <;> simp_all

theorem State.rdFL_eq_error_iff {s : State} {c : Anomaly} :
    s.rdFL = .error c ↔ s.written.flWritten = false ∧ c = .unwrittenRead .fl := by
  unfold State.rdFL
  split <;> simp_all [@eq_comm _ c]

end Sys2Proof.Machine
end

