-- ==== Sys2Proof/Laws/Ops.lean ====
section
/-! SUPPORT. What the shared operations can answer: SP moves, the stack, the fetch, the advance and the end of an
instruction. -/

namespace Sys2Proof.Machine

@[simp] theorem narrow_toNat (n : Nat) : (narrow n).toNat = n % 256 := by simp [narrow]

theorem State.decSp_eq_ok_iff {s t : State} :
    s.decSp = .ok t ↔ 1 ≤ s.sp.toNat ∧ t = s.setReg 7 (narrow (s.sp.toNat - 1)) := by
  unfold State.decSp
  split <;> simp_all [@eq_comm _ t]

theorem State.decSp_eq_error_iff {s : State} {c : Anomaly} :
    s.decSp = .error c ↔ s.sp = 0#8 ∧ c = .stackOutOfRange (-1) := by
  unfold State.decSp
  split
  · rename_i h
    simp only [reduceCtorEq, false_iff]
    rintro ⟨e, -⟩
    simp [e] at h
  · rename_i h
    have e : s.sp = 0#8 := by apply BitVec.eq_of_toNat_eq; simp; omega
    simp [e, @eq_comm _ c]

theorem State.incSp_eq_ok_iff {s t : State} :
    s.incSp = .ok t ↔ s.sp.toNat + 1 ≤ 255 ∧ t = s.setReg 7 (narrow (s.sp.toNat + 1)) := by
  unfold State.incSp
  split <;> simp_all [@eq_comm _ t]

theorem State.incSp_eq_error_iff {s : State} {c : Anomaly} :
    s.incSp = .error c ↔ s.sp = 255#8 ∧ c = .stackOutOfRange 256 := by
  unfold State.incSp
  split
  · rename_i h
    simp only [reduceCtorEq, false_iff]
    rintro ⟨e, -⟩
    simp [e] at h
  · rename_i h
    have e : s.sp = 255#8 := by apply BitVec.eq_of_toNat_eq; have := s.sp.isLt; simp; omega
    simp [e, @eq_comm _ c]

theorem State.stackPush_eq_ok_iff {s t : State} {v : Byte} :
    s.stackPush v = .ok t ↔ ∃ s1, s.decSp = .ok s1 ∧ t = s1.writeMem s1.sp v := by
  cases h : s.decSp <;> simp [State.stackPush, h, bind, Except.bind, pure, Except.pure, @eq_comm _ t]

theorem State.stackPop_eq_ok_iff {s t : State} {v : Byte} :
    s.stackPop = .ok (v, t) ↔ v = s.readMem s.sp ∧ s.incSp = .ok t := by
  cases h : s.incSp <;> simp [State.stackPop, h, bind, Except.bind, pure, Except.pure, @eq_comm _ v]

theorem State.fetch_eq_ok_iff {s t : State} : s.fetch = .ok t ↔ s.pc.toNat ≤ 253 ∧ t = s.latch := by
  unfold State.fetch
  split <;> simp_all [@eq_comm _ t]

theorem State.fetch_eq_error_iff {s : State} {c : Anomaly} :
    s.fetch = .error c ↔ 253 < s.pc.toNat ∧ c = .fetchOutOfRange s.pc := by
  unfold State.fetch
  split
  · simp; omega
  · simp [@eq_comm _ c]; omega

/-- The not-yet-checked next pc depends on pc and the row's length alone. -/
theorem State.pcAfter_eq (s : State) (m : Mnemonic) : s.pcAfter m = s.pc.toNat + m.len := rfl

/-- All that the Advance phase can do. -/
theorem State.advance_cases (s : State) (m : Mnemonic) :
    (s.run ≠ .running ∧ s.advance m = s) ∨
    (s.run = .running ∧ s.pcAfter m ≤ 255 ∧ s.advance m = s.setPc (narrow (s.pcAfter m))) ∨
    (s.run = .running ∧ 255 < s.pcAfter m ∧ s.advance m = s.raise (.pcOutOfRange (s.pcAfter m))) := by
  unfold State.advance
  cases h : s.run with
  | running => by_cases h' : s.pcAfter m ≤ 255 <;> simp [h', Nat.lt_of_not_le]
  | halted => simp
  | faulted r => simp

/-! The Advance phase changes only pc and the run state. -/

@[simp] theorem State.advance_mem (s : State) (m : Mnemonic) : (s.advance m).mem = s.mem := by
  rcases State.advance_cases s m with ⟨-, e⟩ | ⟨-, -, e⟩ | ⟨-, -, e⟩ <;> simp [e]

@[simp] theorem State.advance_regs (s : State) (m : Mnemonic) : (s.advance m).regs = s.regs := by
  rcases State.advance_cases s m with ⟨-, e⟩ | ⟨-, -, e⟩ | ⟨-, -, e⟩ <;> simp [e]

@[simp] theorem State.advance_fl (s : State) (m : Mnemonic) : (s.advance m).fl = s.fl := by
  rcases State.advance_cases s m with ⟨-, e⟩ | ⟨-, -, e⟩ | ⟨-, -, e⟩ <;> simp [e]

@[simp] theorem State.advance_out (s : State) (m : Mnemonic) : (s.advance m).out = s.out := by
  rcases State.advance_cases s m with ⟨-, e⟩ | ⟨-, -, e⟩ | ⟨-, -, e⟩ <;> simp [e]

@[simp] theorem State.advance_latchIR (s : State) (m : Mnemonic) : (s.advance m).latchIR = s.latchIR := by
  rcases State.advance_cases s m with ⟨-, e⟩ | ⟨-, -, e⟩ | ⟨-, -, e⟩ <;> simp [e]

@[simp] theorem State.advance_latchA (s : State) (m : Mnemonic) : (s.advance m).latchA = s.latchA := by
  rcases State.advance_cases s m with ⟨-, e⟩ | ⟨-, -, e⟩ | ⟨-, -, e⟩ <;> simp [e]

@[simp] theorem State.advance_latchB (s : State) (m : Mnemonic) : (s.advance m).latchB = s.latchB := by
  rcases State.advance_cases s m with ⟨-, e⟩ | ⟨-, -, e⟩ | ⟨-, -, e⟩ <;> simp [e]

@[simp] theorem State.advance_written (s : State) (m : Mnemonic) : (s.advance m).written = s.written := by
  rcases State.advance_cases s m with ⟨-, e⟩ | ⟨-, -, e⟩ | ⟨-, -, e⟩ <;> simp [e]

@[simp] theorem State.advance_getReg (s : State) (m : Mnemonic) (q : RegIdx) :
    (s.advance m).getReg q = s.getReg q := by simp [State.getReg]

@[simp] theorem State.advance_sp (s : State) (m : Mnemonic) : (s.advance m).sp = s.sp := State.advance_getReg s m 7

@[simp] theorem State.advance_readMem (s : State) (m : Mnemonic) (p : Byte) :
    (s.advance m).readMem p = s.readMem p := by simp [State.readMem]

@[simp] theorem State.advance_resetMode (s : State) (m : Mnemonic) : (s.advance m).resetMode = s.resetMode := by
  simp [State.resetMode]

/-- All that the end of an instruction can do. -/
theorem complete_eq_next_iff {m : Mnemonic} {s t : State} {h : Except Anomaly State} :
    complete m s h = .next t ↔
      (∃ c, h = .error c ∧ t = s.raise c) ∨
      (∃ u, h = .ok u ∧ m.setsPc = true ∧ t = u) ∨
      (∃ u, h = .ok u ∧ m.setsPc = false ∧ t = u.advance m) := by
  cases h with
  | error c => simp [complete, @eq_comm _ t]
  | ok u => cases hS : m.setsPc <;> simp [complete, hS, @eq_comm _ t]

/-- Every meaning ends by `complete`, so no instruction faults or is refused. -/
theorem exec_eq_complete (i : Instr) (s : State) : ∃ h, exec i s = complete i.mnemonic s h := by
  cases i
  case hlt => exact ⟨.ok (s.setRun .halted), rfl⟩
  all_goals exact ⟨_, rfl⟩

theorem exec_answers_next (i : Instr) (s : State) : ∃ t, exec i s = .next t := by
  obtain ⟨h, e⟩ := exec_eq_complete i s
  rw [e]
  unfold complete
  cases h with
  | error c => exact ⟨_, rfl⟩
  | ok u => exact ⟨_, rfl⟩

end Sys2Proof.Machine
end

