-- ==== Sys2Proof/Laws/Step.lean ====
section
/-! SUPPORT. All that a step can do, under any opcode map and under the default. -/

namespace Sys2Proof.Machine

theorem State.decodeLatched_eq_ok_iff {s : State} {map : OpcodeMap} {i : Instr} :
    s.decodeLatched map = .ok i ↔ decodeWith map s.latchIR s.latchA s.latchB = .ok i := by
  unfold State.decodeLatched
  cases decodeWith map s.latchIR s.latchA s.latchB <;> simp

theorem State.decodeLatched_eq_error_iff {s : State} {map : OpcodeMap} {c : Anomaly} :
    s.decodeLatched map = .error c ↔ lookupOpcode map s.latchIR = none ∧ c = .illegalOpcode s.latchIR := by
  unfold State.decodeLatched decodeWith
  cases lookupOpcode map s.latchIR <;> simp [@eq_comm _ c]

/-- The three ways a step reaches a next state: a failed fetch, an illegal opcode, or the decoded instruction. -/
theorem stepWith_eq_next_iff {map : OpcodeMap} {s t : State} :
    stepWith map s = .next t ↔ s.run = .running ∧
      ((253 < s.pc.toNat ∧ t = s.raise (.fetchOutOfRange s.pc)) ∨
       (s.pc.toNat ≤ 253 ∧ lookupOpcode map (s.readMem s.pc) = none ∧
         t = s.latch.raise (.illegalOpcode (s.readMem s.pc))) ∨
       (s.pc.toNat ≤ 253 ∧
         ∃ i, decodeWith map (s.readMem s.pc) (s.readMem (s.pc + 1#8)) (s.readMem (s.pc + 2#8)) = .ok i ∧
           exec i s.latch = .next t)) := by
  unfold stepWith
  cases hr : s.run with
  | halted => simp
  | faulted r => simp
  | running =>
    by_cases hp : s.pc.toNat ≤ 253
    · have hf : s.fetch = .ok s.latch := State.fetch_eq_ok_iff.2 ⟨hp, rfl⟩
      have hp' : ¬ 253 < s.pc.toNat := by omega
      simp only [hf, hp, hp', true_and, false_and, false_or]
      cases hd : s.latch.decodeLatched map with
      | error c =>
        obtain ⟨h1, rfl⟩ := State.decodeLatched_eq_error_iff.1 hd
        simp only [State.latch_latchIR] at h1
        have hn : decodeWith map (s.readMem s.pc) (s.readMem (s.pc + 1#8)) (s.readMem (s.pc + 2#8)) =
            .error (.illegalOpcode (s.readMem s.pc)) := decodeWith_eq_error_iff.2 ⟨h1, rfl⟩
        simp [hn, h1, @eq_comm _ t]
      | ok i =>
        have hd' := State.decodeLatched_eq_ok_iff.1 hd
        obtain ⟨m, hm, -⟩ := decodeWith_eq_ok_iff.1 hd'
        simp only [State.latch_latchIR, State.latch_latchA, State.latch_latchB] at hd' hm
        simp [hd', hm]
    · have hp' : 253 < s.pc.toNat := by omega
      have hf : s.fetch = .error (.fetchOutOfRange s.pc) := State.fetch_eq_error_iff.2 ⟨hp', rfl⟩
      simp [hf, hp, hp', @eq_comm _ t]

/-- `stepWith_eq_next_iff` under the default opcode map. -/
theorem step_eq_next_iff {s t : State} :
    step s = .next t ↔ s.run = .running ∧
      ((253 < s.pc.toNat ∧ t = s.raise (.fetchOutOfRange s.pc)) ∨
       (s.pc.toNat ≤ 253 ∧ lookupOpcode defaultOpcodeMap (s.readMem s.pc) = none ∧
         t = s.latch.raise (.illegalOpcode (s.readMem s.pc))) ∨
       (s.pc.toNat ≤ 253 ∧ ∃ i, decode (s.readMem s.pc) (s.readMem (s.pc + 1#8)) (s.readMem (s.pc + 2#8)) = .ok i ∧
         exec i s.latch = .next t)) :=
  stepWith_eq_next_iff

end Sys2Proof.Machine
end

