-- ==== Sys2Proof/Tests/Slice0.lean ====
section
/-! SUPPORT. Tests of one step each, with expected results taken from the vectors of 95_test_vectors.md (named in each
comment) or worked by hand from the rules; the WellFormed smoke; one decoding a constructor; and a witness for the
hypotheses of every statement that has any. -/

namespace Sys2Proof.Tests

open Sys2Proof.Machine

/-- A Running machine under RESET_MODE = Zero, with R0 to R2, SP, pc, FL given and `bytes` at pc. -/
def zState (pc sp x0 x1 x2 fl : Byte) (bytes : List Byte) : State :=
  { State.reset with pc := pc, fl := fl, regs := #v[x0, x1, x2, 0, 0, 0, 0, sp], mem := Memory.load [] pc.toNat bytes }

/-- The same under RESET_MODE = Unwritten, with R0 to R2 written, R3 to R6 not, and FL as `flw` says. -/
def uState (flw : Bool) (pc sp x0 x1 x2 fl : Byte) (bytes : List Byte) : State :=
  { zState pc sp x0 x1 x2 fl bytes with written := .present #v[true, true, true, false, false, false, false] flw }

/-- `s` with one more byte of memory. -/
def cell (s : State) (p v : Byte) : State := s.writeMem p v

/-- What a test looks at in a next state; none for a fault or a refusal. -/
def look {α : Type} (o : Host.Outcome State Fault Refusal) (f : State → α) : Option α :=
  match o with
  | .next t => some (f t)
  | _ => none

/-- A Faulted run state. -/
def faulted (c : Anomaly) (fpc fop : Byte) : RunState := .faulted { cause := c, fpc := fpc, fop := fop }

/-- A value of OPCODE_MAP that keeps R51 and differs from the default on PUSH, CALL and SUB (worked by hand: 01001011
has n = 1, S = 0; 01011010 has n = 1, S = 1; 10101011 has n = 2, S = 0). -/
def otherMap (m : Mnemonic) : Byte :=
  match m with
  | .push => 0b01001011#8
  | .call => 0b01011010#8
  | .sub => 0b10101011#8
  | _ => defaultOpcodeMap m

/-! ### WellFormed: an ill-formed term for each check -/

theorem test_wellFormed_one_operand :
    [Instr.ldi 8 0, .prn 8, .push 8, .pop 8, .call 8, .inc 8, .dec 8, .jmp 8, .jeq 8, .jne 8].map Instr.wellFormed =
      List.replicate 10 false := by decide

theorem test_wellFormed_first_operand :
    [Instr.add 8 0, .sub 8 0, .mul 8 0, .cmp 8 0].map Instr.wellFormed = List.replicate 4 false := by decide

theorem test_wellFormed_second_operand :
    [Instr.add 0 255, .sub 0 255, .mul 0 255, .cmp 0 255].map Instr.wellFormed = List.replicate 4 false := by decide

theorem test_wellFormed_accepts :
    [Instr.hlt, .ret, .ldi 7 255, .add 7 7, .pop 0].map Instr.wellFormed = List.replicate 5 true := by decide

/-! ### Decode: every constructor by a word written out from 30_encoding.md R41 -/

theorem test_decode_hlt : decode 0b00000001#8 0b11111111#8 0b11111111#8 = .ok .hlt := by decide
theorem test_decode_ldi : decode 0b10000010#8 0b00000111#8 0b11111111#8 = .ok (.ldi 7 255) := by decide
theorem test_decode_prn : decode 0b01000111#8 0b00000011#8 0b00000001#8 = .ok (.prn 3) := by decide
theorem test_decode_push : decode 0b01000101#8 0b00000001#8 0b00000010#8 = .ok (.push 1) := by decide
theorem test_decode_pop : decode 0b01000110#8 0b00000010#8 0b00000001#8 = .ok (.pop 2) := by decide
theorem test_decode_call : decode 0b01010000#8 0b00000100#8 0b00000001#8 = .ok (.call 4) := by decide
theorem test_decode_ret : decode 0b00010001#8 0b00000001#8 0b00000001#8 = .ok .ret := by decide
theorem test_decode_add : decode 0b10100000#8 0b00000001#8 0b00000010#8 = .ok (.add 1 2) := by decide
theorem test_decode_sub : decode 0b10100001#8 0b00000001#8 0b00000010#8 = .ok (.sub 1 2) := by decide
theorem test_decode_mul : decode 0b10100010#8 0b00000001#8 0b00000010#8 = .ok (.mul 1 2) := by decide
theorem test_decode_inc : decode 0b01100101#8 0b00000110#8 0b00000010#8 = .ok (.inc 6) := by decide
theorem test_decode_dec : decode 0b01100110#8 0b00000110#8 0b00000010#8 = .ok (.dec 6) := by decide
theorem test_decode_cmp : decode 0b10100111#8 0b00000001#8 0b00000010#8 = .ok (.cmp 1 2) := by decide
theorem test_decode_jmp : decode 0b01010100#8 0b00000101#8 0b00000010#8 = .ok (.jmp 5) := by decide
theorem test_decode_jeq : decode 0b01010101#8 0b00000101#8 0b00000010#8 = .ok (.jeq 5) := by decide
theorem test_decode_jne : decode 0b01010110#8 0b00001001#8 0b00000010#8 = .ok (.jne 9) := by decide

/-- DC3: bytes that are in no row. -/
theorem test_decode_illegal :
    [0x02#8, 0x13#8, 0x48#8, 0x57#8, 0xA3#8, 0xC0#8, 0xFF#8, 0x00#8].map (fun ir => decode ir 0 0) =
      [0x02#8, 0x13#8, 0x48#8, 0x57#8, 0xA3#8, 0xC0#8, 0xFF#8, 0x00#8].map (fun ir => .error (.illegalOpcode ir)) := by
  decide

theorem test_decodeBytes_short : decodeBytes [0x01#8] = .error (.shortWindow 1) := by decide

/-- The first word's bits are the least significant. -/
theorem test_decodeTableWord : decodeTableWord 24 0x080082 = some (.ldi 0 8) ∧ decodeTableWord 8 0x82 = some (.ldi 0 0) ∧
    decodeTableWord 8 0x00 = none := by decide

/-! ### One step: the vectors of 95_test_vectors.md -/

/-- HL1 -/
theorem test_hlt : look (step (zState 0x0A 0xF4 0 0 0 0 [0x01])) (fun t => (t.run, t.pc)) = some (.halted, 0x0A) := by
  decide

/-- HL3: HLT at 253 halts, though pc + 1 is the last address. -/
theorem test_hlt_at_253 :
    look (step (zState 0xFD 0xF4 0 0 0 0 [0x01])) (fun t => (t.run, t.pc)) = some (.halted, 0xFD) := by decide

/-- DM2: LDI R7 sets SP. -/
theorem test_ldi_sp :
    look (step (uState false 0 0xF4 0 0 0 0 [0x82, 0x07, 0x10])) (fun t => (t.run, t.pc, t.sp)) =
      some (.running, 3, 0x10) := by decide

/-- DC6: the load is committed and the advance fails. -/
theorem test_ldi_at_253 :
    look (step (zState 0xFD 0xF4 0 0 0 0 [0x82, 0x00, 0x07])) (fun t => (t.run, t.pc, t.getReg 0)) =
      some (faulted (.pcOutOfRange 256) 0xFD 0x82, 0xFD, 7) := by decide

/-- DM8: PRN R7 emits SP, after what was emitted before. -/
theorem test_prn_sp :
    look (step { zState 0 0xF4 0 0 0 0 [0x47, 0x07] with out := [1] }) (fun t => (t.out, t.pc)) =
      some ([1, 244], 2) := by decide

/-- DM6 -/
theorem test_prn_unwritten :
    look (step (uState false 0 0xF4 0 0 0 0 [0x47, 0x03])) (fun t => (t.run, t.pc, t.out)) =
      some (faulted (.unwrittenRead (.reg 3)) 0 0x47, 0, []) := by decide

/-- DM10: PUSH R7 stores the decremented SP. -/
theorem test_push_sp :
    look (step (zState 0 0xF4 0 0 0 0 [0x45, 0x07])) (fun t => (t.sp, t.readMem 0xF3, t.pc)) =
      some (0xF3, 0xF3, 2) := by decide

/-- DM11 -/
theorem test_push_at_zero :
    look (step (zState 0 0 1 0 0 0 [0x45, 0x00])) (fun t => (t.run, t.sp, t.pc)) =
      some (faulted (.stackOutOfRange (-1)) 0 0x45, 0, 0) := by decide

/-- DM14: POP R7 leaves the popped byte plus 1. -/
theorem test_pop_sp :
    look (step (cell (zState 0 0xF3 0 0 0 0 [0x46, 0x07]) 0xF3 0x20)) (fun t => (t.sp, t.pc)) = some (0x21, 2) := by
  decide

/-- DM15: nothing of a faulting POP is committed. -/
theorem test_pop_past_end :
    look (step (zState 0 0xFF 3 0 0 0 [0x46, 0x00])) (fun t => (t.run, t.getReg 0, t.sp)) =
      some (faulted (.stackOutOfRange 256) 0 0x46, 3, 0xFF) := by decide

/-- SR1 -/
theorem test_call :
    look (step (zState 6 0xF4 0 0x0B 0 0 [0x50, 0x01])) (fun t => (t.sp, t.readMem 0xF3, t.pc)) =
      some (0xF3, 8, 0x0B) := by decide

/-- SR3: CALL R7 jumps to the decremented SP. -/
theorem test_call_sp :
    look (step (zState 6 0xF4 0 0 0 0 [0x50, 0x07])) (fun t => (t.sp, t.readMem 0xF3, t.pc)) =
      some (0xF3, 8, 0xF3) := by decide

/-- SR2 -/
theorem test_ret :
    look (step (cell (zState 0 0xF3 0 0 0 0 [0x11]) 0xF3 0x08)) (fun t => (t.pc, t.sp)) = some (8, 0xF4) := by decide

/-- SR5 -/
theorem test_ret_past_end :
    look (step (zState 2 0xFF 0 0 0 0 [0x11])) (fun t => (t.run, t.pc, t.sp)) =
      some (faulted (.stackOutOfRange 256) 2 0x11, 2, 0xFF) := by decide

/-- AR2, AR21: the carry is discarded and FL kept. -/
theorem test_add :
    look (step (zState 0 0xF4 200 100 0 2 [0xA0, 0x00, 0x01])) (fun t => (t.getReg 0, t.getReg 1, t.fl, t.pc)) =
      some (44, 100, 2, 3) := by decide

/-- AR5: a bad second operand leaves the first register alone. -/
theorem test_add_bad_register :
    look (step (zState 0 0xF4 1 0 0 0 [0xA0, 0x00, 0x09])) (fun t => (t.run, t.getReg 0)) =
      some (faulted (.badRegister 9) 0 0xA0, 1) := by decide

/-- AR9 -/
theorem test_sub : look (step (zState 0 0xF4 3 5 0 0 [0xA1, 0x00, 0x01])) (fun t => t.getReg 0) = some 0xFE := by decide

/-- AR10: source and destination the same. -/
theorem test_sub_same :
    look (step (zState 0 0xF4 0 0 0x77 0 [0xA1, 0x02, 0x02])) (fun t => t.getReg 2) = some 0 := by decide

/-- AR13 -/
theorem test_mul :
    look (step (zState 0 0xF4 0xFF 0xFF 0 0 [0xA2, 0x00, 0x01])) (fun t => t.getReg 0) = some 1 := by decide

/-- AR15 -/
theorem test_mul_max :
    look (step (zState 0 0xF4 0x0F 0x11 0 0 [0xA2, 0x00, 0x01])) (fun t => t.getReg 0) = some 0xFF := by decide

/-- AR16 -/
theorem test_inc : look (step (zState 0 0xF4 0xFF 0 0 0 [0x65, 0x00])) (fun t => (t.getReg 0, t.pc)) = some (0, 2) := by
  decide

/-- AR18: INC R7 wraps SP with no fault. -/
theorem test_inc_sp :
    look (step (zState 0 0xFF 0 0 0 0 [0x65, 0x07])) (fun t => (t.run, t.sp)) = some (.running, 0) := by decide

/-- AR19 -/
theorem test_dec : look (step (zState 0 0xF4 0 0 0 0 [0x66, 0x00])) (fun t => (t.getReg 0, t.pc)) = some (0xFF, 2) := by
  decide

/-- AR20: DEC R7 wraps SP with no fault. -/
theorem test_dec_sp :
    look (step (zState 0 0 0 0 0 0 [0x66, 0x07])) (fun t => (t.run, t.sp)) = some (.running, 0xFF) := by decide

/-- CP5: the comparison is unsigned. -/
theorem test_cmp_unsigned :
    look (step (zState 0 0xF4 0x80 0x7F 0 0 [0xA7, 0x00, 0x01])) (fun t => (t.fl, t.pc)) = some (0b010, 3) := by decide

/-- CP8: the old E is overwritten. -/
theorem test_cmp_overwrites :
    look (step (zState 0 0xF4 1 2 0 1 [0xA7, 0x00, 0x01])) (fun t => (t.fl, t.getReg 0)) = some (0b100, 1) := by decide

/-- BR1 -/
theorem test_jmp : look (step (zState 5 0xF4 0 0 0x10 0 [0x54, 0x02])) (fun t => t.pc) = some 0x10 := by decide

/-- BR9: a target of 254 is accepted by the branch. -/
theorem test_jmp_to_254 :
    look (step (zState 0 0xF4 0 0 0xFE 0 [0x54, 0x02])) (fun t => (t.run, t.pc)) = some (.running, 0xFE) := by decide

/-- BR2, BR6 -/
theorem test_jeq :
    look (step (zState 0x0E 0xF4 0 0 0x11 1 [0x55, 0x02])) (fun t => t.pc) = some 0x11 ∧
      look (step (zState 0x0E 0xF4 0 0 0x11 4 [0x55, 0x02])) (fun t => t.pc) = some 0x10 := by decide

/-- BR10: the register is checked though the branch would not be taken. -/
theorem test_jeq_bad_register :
    look (step (zState 0 0xF4 0 0 0 2 [0x55, 0x08])) (fun t => t.run) = some (faulted (.badRegister 8) 0 0x55) := by
  decide

/-- BR4, BR5 -/
theorem test_jne :
    look (step (zState 0x10 0xF4 0 0 9 2 [0x56, 0x02])) (fun t => t.pc) = some 9 ∧
      look (step (zState 0x10 0xF4 0 0 9 1 [0x56, 0x02])) (fun t => t.pc) = some 0x12 := by decide

/-- BR7's check on JNE: FL unwritten. -/
theorem test_jne_unwritten_flags :
    look (step (uState false 3 0xF4 0 0 6 0 [0x56, 0x02])) (fun t => t.run) =
      some (faulted (.unwrittenRead .fl) 3 0x56) := by decide

/-- DC5: FetchOutOfRange, not IllegalOpcode. -/
theorem test_fetch_at_254 :
    look (step (zState 0xFE 0xF4 0 0 0 0 [])) (fun t => (t.run, t.pc)) =
      some (faulted (.fetchOutOfRange 0xFE) 0xFE 0x00, 0xFE) := by decide

/-- P7's third step: a PUSH over its own operand byte uses the operand latched before. -/
theorem test_push_over_own_operand :
    look (step (zState 6 8 5 0 0 0 [0x45, 0x00, 0x01])) (fun t => (t.sp, t.readMem 7, t.pc)) = some (7, 5, 8) := by
  decide

/-- From State.reset with nothing loaded, the first step reads 0x00 (30_encoding.md R45). -/
theorem test_reset_alone :
    look (step State.reset) (fun t => t.run) = some (faulted (.illegalOpcode 0) 0 0) := by decide

/-- A placed word is the next instruction. -/
theorem test_withFetchWord :
    look (step (State.reset.withFetchWord 24 0x2A0382)) (fun t => (t.run, t.pc, t.getReg 3)) =
      some (.running, 3, 0x2A) := by decide

/-- A stopped machine has no step (40_cycle.md R59). -/
theorem test_stopped : look (step { State.reset with run := .halted }) (fun t => t.pc) = none := by decide

/-- Under another OPCODE_MAP, SUB runs from its byte there and moves pc by 3, and the default's byte is illegal. -/
theorem test_sub_otherMap :
    look (stepWith otherMap (zState 0 0xF4 3 5 0 0 [0xAB, 0x00, 0x01])) (fun t => (t.getReg 0, t.pc)) =
        some (0xFE, 3) ∧
      look (stepWith otherMap (zState 0 0xF4 3 5 0 0 [0xA1, 0x00, 0x01])) (fun t => t.run) =
        some (faulted (.illegalOpcode 0xA1) 0 0xA1) := by decide

/-- Under another OPCODE_MAP, CALL runs from its byte there. -/
theorem test_call_otherMap :
    look (stepWith otherMap (zState 6 0xF4 0 0x0B 0 0 [0x5A, 0x01])) (fun t => (t.sp, t.readMem 0xF3, t.pc)) =
      some (0xF3, 8, 0x0B) := by decide

/-! ### Witnesses: states and operands that meet the hypotheses of each statement, clause by clause -/

/-- DecodeOfEncodeUnderAnyOpcodeMap: the default map gives no two mnemonics one byte. -/
theorem witness_injective_map : Function.Injective defaultOpcodeMap := by
  intro m m' h
  revert h
  cases m <;> cases m' <;> decide

/-- DecodedBytesAreTheEncoding. -/
theorem witness_decodes : decode 0x47 7 0xFF = .ok (.prn 7) := by decide

/-- DecoderAcceptsExactlyTheTable, both clauses. -/
theorem witness_table : 0x56#8 ∈ tableOpcodes ∧ 0x57#8 ∉ tableOpcodes := by decide

/-- IgnoredOperandBytesHaveNoEffect, its three clauses. -/
theorem witness_ignored :
    opCount 0x11 = 0 ∧ opCount 0x66 = 1 ∧ ∃ t, exec (.inc 0) (zState 0 0xF4 1 0 0 0 []) = .next t :=
  ⟨by decide, by decide, _, rfl⟩

/-- AStepRunsTheDecodedInstruction and ARunningMachineAlwaysSteps, at the last fetchable pc. -/
theorem witness_step :
    let s := zState 0xFD 0xF4 0 0 0 0 [0x82, 0x07, 0x10]
    s.run = .running ∧ s.pc.toNat ≤ 253 ∧
      decode (s.readMem s.pc) (s.readMem (s.pc + 1#8)) (s.readMem (s.pc + 2#8)) = .ok (.ldi 7 0x10) := by decide

/-- AStepUnderAnyOpcodeMapRunsTheDecodedInstruction, both clauses, under a map that is not the default. -/
theorem witness_step_otherMap :
    let s := zState 0xFD 0xF4 0 0 0 0 [0x4B, 0x07]
    let u := zState 0xFD 0xF4 0 0 0 0 [0x45, 0x07]
    s.run = .running ∧ s.pc.toNat ≤ 253 ∧
      decodeWith otherMap (s.readMem s.pc) (s.readMem (s.pc + 1#8)) (s.readMem (s.pc + 2#8)) = .ok (.push 7) ∧
      u.run = .running ∧ u.pc.toNat ≤ 253 ∧ ∀ m ∈ Mnemonic.all, otherMap m ≠ u.readMem u.pc := by decide

/-- The maps that keep R51 include the default and another. -/
theorem witness_keepsFields : defaultOpcodeMap.keepsFields ∧ OpcodeMap.keepsFields otherMap :=
  ⟨fun m => by cases m <;> decide, fun m => by cases m <;> decide⟩

/-- PlainInstructionsAdvanceByTheirLengthUnderAnyOpcodeMap, running on at the last pc where 2 bytes fit and stopping. -/
theorem witness_plain_otherMap :
    (∃ t, stepWith otherMap (zState 0xFD 0xF4 0 0 0 0 [0x4B, 0x07]) = .next t ∧ (0x4B#8 : Byte).getLsbD 4 = false ∧
      t.run = .running) ∧
    ∃ t, stepWith otherMap (zState 0xFD 0xF4 0 0 0 0 [0x45, 0x07]) = .next t ∧ (0x45#8 : Byte).getLsbD 4 = false ∧
      t.run ≠ .running := ⟨⟨_, rfl, by decide, by decide⟩, _, rfl, by decide, by decide⟩

/-- FetchPastTheEndFaults, at its first pc. -/
theorem witness_fetch_past_end : (zState 0xFE 0xF4 0 0 0 0 []).run = .running ∧ 253 < (0xFE#8).toNat := by decide

/-- IllegalOpcodeFaults, at the last fetchable pc. -/
theorem witness_illegal :
    let s := zState 0xFD 0xF4 0 0 0 0 [0xC0]
    s.run = .running ∧ s.pc.toNat ≤ 253 ∧ s.readMem s.pc ∉ tableOpcodes := by decide

/-- AStoppedMachineHasNoStep. -/
theorem witness_stopped : ({ State.reset with run := .halted } : State).run ≠ .running := by decide

/-- AnAnomalyCommitsNothing, for a cause other than PcOutOfRange, and BadRegisterIsForOperandsAboveSeven. -/
theorem witness_anomaly :
    ∃ t, step (zState 0 0xF4 0 0 0 0 [0x47, 0x08]) = .next t ∧ t.run = faulted (.badRegister 8) 0 0x47 :=
  ⟨_, rfl, by decide⟩

/-- AnAnomalyCommitsNothing and PcOutOfRangeOnlyForThreeBytesAt253, for PcOutOfRange. -/
theorem witness_pcOutOfRange :
    ∃ t, step (zState 0xFD 0xF4 1 2 0 0 [0xA0, 0x00, 0x01]) = .next t ∧ t.run = faulted (.pcOutOfRange 256) 0xFD 0xA0 :=
  ⟨_, rfl, by decide⟩

/-- PlainInstructionsAdvanceByTheirLength, running on. -/
theorem witness_plain_runs :
    ∃ t, step (zState 0xFD 0xF4 0 0 0 0 [0x47, 0x00]) = .next t ∧ opSetsPc 0x47 = false ∧ t.run = .running :=
  ⟨_, rfl, by decide, by decide⟩

/-- PlainInstructionsAdvanceByTheirLength, stopping. -/
theorem witness_plain_stops :
    ∃ t, step (zState 0xFD 0xF4 0 0 0 0 [0x01]) = .next t ∧ opSetsPc 0x01 = false ∧ t.run ≠ .running :=
  ⟨_, rfl, by decide, by decide⟩

/-- The operand clauses of every statement about an instruction with register operands: a byte just above 7, R7 and R0
by their bytes, an unwritten register and a written one, and R7, which always counts as written. -/
theorem witness_operands :
    let s := uState false 0 0xF4 1 2 3 0 []
    7 < (8#8 : Byte).toNat ∧ (7 : RegIdx).val = (7#8 : Byte).toNat ∧ (0 : RegIdx).val = (0#8 : Byte).toNat ∧
      s.written.regWritten 3 = false ∧ s.written.regWritten 0 = true ∧ s.written.regWritten 7 = true := by decide

/-- LDI, ADD, SUB, MUL and CMP complete and run on: a Running state at the last pc from which 3 bytes fit, with both
registers written. -/
theorem witness_three_bytes_run :
    let s := uState true 0xFC 0xF4 1 2 3 1 []
    s.run = .running ∧ s.pc.toNat ≤ 253 ∧ s.written.regWritten 0 = true ∧ s.written.regWritten 1 = true ∧
      s.pc.toNat + 3 ≤ 255 := by decide

/-- LDI, ADD, SUB, MUL and CMP complete with PcOutOfRange: the one pc where they do. -/
theorem witness_three_bytes_past_end :
    let s := uState true 0xFD 0xF4 1 2 3 1 []
    s.run = .running ∧ s.pc.toNat ≤ 253 ∧ s.written.regWritten 0 = true ∧ s.written.regWritten 1 = true ∧
      255 < s.pc.toNat + 3 := by decide

/-- ADD, SUB, MUL and CMP with an unwritten second register. -/
theorem witness_second_unwritten :
    let s := uState true 0xFD 0xF4 1 2 3 1 []
    s.run = .running ∧ s.written.regWritten 0 = true ∧ s.written.regWritten 6 = false ∧
      (6 : RegIdx).val = (6#8 : Byte).toNat := by decide

/-- CMP's three relations, at neighbouring values around 0x80. -/
theorem witness_cmp_relations :
    let s := zState 0 0xF4 0x7F 0x80 0x80 0 []
    s.getReg 1 = s.getReg 2 ∧ (s.getReg 0).toNat < (s.getReg 1).toNat := by decide

/-- PRN, INC, DEC and JMP complete: a Running state at the last fetchable pc with a written register. -/
theorem witness_two_bytes_run :
    let s := uState false 0xFD 0xF4 1 2 3 0 []
    s.run = .running ∧ s.pc.toNat ≤ 253 ∧ s.written.regWritten 2 = true := by decide

/-- JEQ and JNE: FL unwritten, FL with E set, FL with E clear. -/
theorem witness_branch_flags :
    (uState false 0xFD 0xF4 1 2 3 0 []).written.flWritten = false ∧
      (uState true 0xFD 0xF4 1 2 3 1 []).written.flWritten = true ∧
      (uState true 0xFD 0xF4 1 2 3 1 []).fl.getLsbD 0 = true ∧
      (uState true 0xFD 0xF4 1 2 3 2 []).fl.getLsbD 0 = false := by decide

/-- PUSH and CALL complete, with SP = 1, the lowest from which they do, and memory in canonical form; the register may
be R0 or R7. -/
theorem witness_push :
    let s := uState false 0xFD 1 1 2 3 0 [0x45]
    s.run = .running ∧ s.pc.toNat ≤ 253 ∧ Memory.wf s.mem = true ∧ 1 ≤ s.sp.toNat ∧ s.written.regWritten 0 = true ∧
      s.written.regWritten 7 = true ∧ s.written.regWritten 4 = false := by decide

/-- PUSH and CALL stop: SP = 0. -/
theorem witness_push_at_zero :
    let s := uState false 0xFD 0 1 2 3 0 [0x45]
    s.run = .running ∧ s.pc.toNat ≤ 253 ∧ Memory.wf s.mem = true ∧ s.sp = 0x00#8 := by decide

/-- POP and RET complete at SP = 254, the highest from which they do, and stop at SP = 255. -/
theorem witness_pop :
    (zState 0xFD 254 1 2 3 0 []).sp.toNat < 255 ∧ (zState 0xFD 255 1 2 3 0 []).sp = 0xFF#8 ∧
      (zState 0xFD 254 1 2 3 0 []).run = .running ∧ (zState 0xFD 254 1 2 3 0 []).pc.toNat ≤ 253 := by decide

/-- POP R7: a popped byte of 254 completes and one of 255 stops. -/
theorem witness_pop_sp :
    let s := zState 0xFD 0xF3 1 2 3 0 []
    ((cell s 0xF3 254).readMem (cell s 0xF3 254).sp).toNat < 255 ∧
      (cell s 0xF3 255).readMem (cell s 0xF3 255).sp = 0xFF#8 := by decide

/-- PushThenPopMovesTheValue, at its highest pc and lowest SP. -/
theorem witness_push_then_pop :
    let s := uState false 251 1 1 2 3 0 []
    (0 : RegIdx).val = (0#8 : Byte).toNat ∧ (6 : RegIdx).val = (6#8 : Byte).toNat ∧ (0 : RegIdx) ≠ 7 ∧ (6 : RegIdx) ≠ 7 ∧
      (0 : RegIdx) ≠ 6 ∧ s.run = .running ∧ s.pc.toNat ≤ 251 ∧ Memory.wf s.mem = true ∧ 1 ≤ s.sp.toNat ∧
      s.written.regWritten 0 = true := by decide

/-- CallThenRetComesBack, at its highest pc and lowest SP, through R7. -/
theorem witness_call_then_ret :
    let s := uState false 253 1 1 2 3 0 []
    (7 : RegIdx).val = (7#8 : Byte).toNat ∧ s.run = .running ∧ s.pc.toNat ≤ 253 ∧ Memory.wf s.mem = true ∧
      1 ≤ s.sp.toNat ∧ s.written.regWritten 7 = true := by decide

/-- BranchAfterCompareFollowsEquality, at its highest pc, with equal values and with different ones. -/
theorem witness_branch_after_compare :
    let s := uState false 250 0xF4 5 5 6 0 []
    s.run = .running ∧ s.pc.toNat ≤ 250 ∧ s.written.regWritten 0 = true ∧ s.written.regWritten 1 = true ∧
      s.written.regWritten 2 = true ∧ s.getReg 0 = s.getReg 1 ∧ s.getReg 0 ≠ s.getReg 2 := by decide

/-- OnlyCmpChangesTheFlagRegister and WrittenBitsAreNeverCleared. -/
theorem witness_not_cmp :
    ∃ t, step (uState true 0 0xF4 1 2 3 1 [0xA0, 0x00, 0x01]) = .next t ∧
      (uState true 0 0xF4 1 2 3 1 [0xA0, 0x00, 0x01]).readMem 0 ≠ 0xA7#8 := ⟨_, rfl, by decide⟩

/-- OnlyPushAndCallChangeMemory: a step that changes a byte. -/
theorem witness_memory_changes :
    let s := zState 0 0xF4 5 0 0 0 [0x45, 0x00]
    Memory.wf s.mem = true ∧ ∃ t, step s = .next t ∧ t.readMem 0xF3 ≠ s.readMem 0xF3 := ⟨by decide, _, rfl, by decide⟩

/-- OnlyPrnWritesOutput and OnlyHltHalts: any step. -/
theorem witness_any_step : ∃ t, step (zState 0xFD 0xF4 0 0 0 0 [0x01]) = .next t ∧ t.run = .halted :=
  ⟨_, rfl, by decide⟩

/-- BadRegisterIsForOperandsAboveSeven: an ill-formed instruction that ends in an anomaly. -/
theorem witness_ill_formed :
    (Instr.add 7 8).wellFormed = false ∧
      ∃ t, exec (.add 7 8) (zState 0xFD 0xF4 0 0 0 0 []) = .next t ∧ t.run = faulted (.badRegister 8) 0xFD 0 :=
  ⟨by decide, _, rfl, by decide⟩

/-- UnwrittenReadNeedsAClearBit, for a register and for FL. -/
theorem witness_unwritten_reads :
    (∃ t, step (uState false 0 0xF4 1 2 3 0 [0x47, 0x03]) = .next t ∧
      t.run = faulted (.unwrittenRead (.reg 3)) 0 0x47) ∧
    ∃ t, step (uState false 0 0xF4 1 2 3 0 [0x55, 0x02]) = .next t ∧ t.run = faulted (.unwrittenRead .fl) 0 0x55 :=
  ⟨⟨_, rfl, by decide⟩, _, rfl, by decide⟩

/-- StackOutOfRangeOnlyAtTheEnds, on the push side and, through POP R7, on the pop side. -/
theorem witness_stack_anomalies :
    (∃ t, step (zState 0 0 1 0 0 0 [0x50, 0x00]) = .next t ∧ t.run = faulted (.stackOutOfRange (-1)) 0 0x50) ∧
    ∃ t, step (cell (zState 0 0xF3 1 0 0 0 [0x46, 0x07]) 0xF3 0xFF) = .next t ∧
      t.run = faulted (.stackOutOfRange 256) 0 0x46 := ⟨⟨_, rfl, by decide⟩, _, rfl, by decide⟩

/-- AReadGivesTheLastWrite and TheNextFetchSeesAStore: canonical memory, the last fetchable pc, two addresses. -/
theorem witness_memory :
    Memory.wf (zState 0xFD 0xF4 0 0 0 0 [0x01, 0x02]).mem = true ∧ (zState 0xFD 0xF4 0 0 0 0 []).pc.toNat ≤ 253 ∧
      (0xFF#8 : Byte) ≠ 0x00#8 := by decide

/-- CanonicalMemoriesThatReadAlikeAreEqual: two canonical memories that read alike, reached by different writes. -/
theorem witness_memories_alike :
    let m := Memory.writeCell (Memory.writeCell [] 1 5) 0 6
    let m' := Memory.writeCell (Memory.writeCell (Memory.writeCell [] 2 9) 0 6) 1 5
    Memory.wf m = true ∧ Memory.wf (Memory.writeCell m' 2 0) = true ∧
      ∀ n, n < 256 → Memory.readCell m n = Memory.readCell (Memory.writeCell m' 2 0) n :=
  ⟨by decide, by decide, fun _ _ => rfl⟩

/-- BootPlacesTheImage: the longest image that fits, and one byte more. -/
theorem witness_images : (List.replicate 256 0x01#8).length ≤ 256 ∧ 256 < (List.replicate 257 0x01#8).length := by
  simp only [List.length_replicate]
  omega

/-- EveryStepKeepsTheInvariant: a state with the invariant that takes a step. -/
theorem witness_invariant_step : State.reset.Inv ∧ ∃ t, step State.reset = .next t :=
  ⟨⟨rfl, .inr (.inr (.inr ⟨rfl, fun h => by simp [State.reset, State.resetIn, State.resetMode, WrittenBits.atReset] at h⟩)),
    fun _ h => by simp [State.reset, State.resetIn] at h⟩, _, rfl⟩

end Sys2Proof.Tests
end

/-! ## What a handler can answer

`Completes` lists, an instruction a constructor, the working copies a handler can commit; `FailsCheck` lists the
anomalies its checks can raise. `exec_eq_complete_outcome` says that nothing else happens; `stepTo_of_step` carries it to
a step. The proofs about steps are case analyses of these. -/

namespace Sys2Proof

/-- The operand bytes that name registers (10_state.md R14): all but the literal of LDI. -/
def Instr.regOperands (i : Instr) : List Byte :=
  match i with
  | .ldi a _ => [a]
  | i => i.operandBytes

/-- The operand bytes that name registers the instruction reads: LDI and POP only write the one they name. -/
def Instr.srcOperands (i : Instr) : List Byte :=
  match i with
  | .ldi _ _ | .pop _ => []
  | i => i.operandBytes

/-- An instruction is well formed exactly when each of its register operands is at most 7. -/
theorem Instr.wellFormed_eq_all (i : Instr) : i.wellFormed = i.regOperands.all regOperandOk := by
  cases i <;> simp [Instr.wellFormed, Instr.regOperands, Instr.operandBytes]

/-- A register that is read is a register operand. -/
theorem Instr.mem_regOperands_of_src {i : Instr} {v : Byte} (h : v ∈ i.srcOperands) : v ∈ i.regOperands := by
  cases i with
  | ldi a b => exact nomatch h
  | pop a => exact nomatch h
  | _ => exact h

/-- What the default decoder accepts has its mnemonic's opcode byte and is built from the two operand bytes. -/
theorem opcode_of_decode {ir a b : Byte} {i : Instr} (h : decode ir a b = .ok i) :
    defaultOpcodeMap i.mnemonic = ir ∧ i = Instr.build i.mnemonic a b := by
  obtain ⟨m, hm, rfl⟩ := decodeWith_eq_ok_iff.1 h
  rw [Instr.mnemonic_build]
  exact ⟨lookupOpcode_sound hm, rfl⟩

theorem opcode_eq_hlt_iff (i : Instr) : defaultOpcodeMap i.mnemonic = 0x01#8 ↔ i = .hlt := by
  cases i <;> simp [Instr.mnemonic, defaultOpcodeMap]

end Sys2Proof

namespace Sys2Proof.Machine

/-- The written bit of R7 is not stored, so setting it changes no written bit. -/
@[simp] theorem WrittenBits.regWritten_markReg_sp (w : WrittenBits) (q : RegIdx) :
    (w.markReg 7).regWritten q = w.regWritten q := by
  rw [WrittenBits.regWritten_markReg]
  split
  · next h => rw [h, WrittenBits.regWritten_spIndex]
  · rfl

theorem WrittenBits.regWritten_markReg_of (w : WrittenBits) (r : RegIdx) {q : RegIdx} (h : w.regWritten q = true) :
    (w.markReg r).regWritten q = true := by
  rw [WrittenBits.regWritten_markReg, h, ite_self]

/-- The operand byte `a` names the register `r`, and `r` has been written: `rd(a)` gives its value (00_scope.md R8). -/
def State.Reads (s : State) (a : Byte) (r : RegIdx) : Prop := r.val = a.toNat ∧ s.written.regWritten r = true

/-- `s` with SP one lower: the first half of a push. -/
def State.pushed (s : State) : State := s.setReg 7 (narrow (s.sp.toNat - 1))

/-- `s` with SP one higher: the second half of a pop. -/
def State.popped (s : State) : State := s.setReg 7 (narrow (s.sp.toNat + 1))

/-- `Completes s i u`: the handler of `i`, run on `s`, passes all its checks and leaves the working copy `u`. -/
inductive Completes (s : State) : Instr → State → Prop
  | hlt : Completes s .hlt (s.setRun .halted)
  | ldi {a b r} (hr : r.val = a.toNat) : Completes s (.ldi a b) (s.setReg r b)
  | prn {a r} (hr : s.Reads a r) : Completes s (.prn a) (s.emit (s.getReg r))
  | push {a r} (hr : s.Reads a r) (hsp : 1 ≤ s.sp.toNat) :
      Completes s (.push a) (s.pushed.writeMem s.pushed.sp (s.pushed.getReg r))
  | pop {a r} (hr : r.val = a.toNat) (hsp : (s.setReg r (s.readMem s.sp)).sp.toNat + 1 ≤ 255) :
      Completes s (.pop a) (s.setReg r (s.readMem s.sp)).popped
  | call {a r} (hr : s.Reads a r) (hsp : 1 ≤ s.sp.toNat) :
      Completes s (.call a)
        ((s.pushed.writeMem s.pushed.sp (narrow (s.pcAfter .call))).setPc (s.pushed.getReg r))
  | ret (hsp : s.sp.toNat + 1 ≤ 255) : Completes s .ret (s.popped.setPc (s.readMem s.sp))
  | add {a b p q} (hp : s.Reads a p) (hq : s.Reads b q) :
      Completes s (.add a b) (s.setReg p (narrow ((s.getReg p).toNat + (s.getReg q).toNat)))
  | sub {a b p q} (hp : s.Reads a p) (hq : s.Reads b q) :
      Completes s (.sub a b) (s.setReg p (narrow ((s.getReg p).toNat + 256 - (s.getReg q).toNat)))
  | mul {a b p q} (hp : s.Reads a p) (hq : s.Reads b q) :
      Completes s (.mul a b) (s.setReg p (narrow ((s.getReg p).toNat * (s.getReg q).toNat)))
  | inc {a p} (hp : s.Reads a p) : Completes s (.inc a) (s.setReg p (narrow ((s.getReg p).toNat + 1)))
  | dec {a p} (hp : s.Reads a p) : Completes s (.dec a) (s.setReg p (narrow ((s.getReg p).toNat + 255)))
  | cmp {a b p q} (hp : s.Reads a p) (hq : s.Reads b q) :
      Completes s (.cmp a b) (s.setFL (compareFlags (s.getReg p) (s.getReg q)))
  | jmp {a r} (hr : s.Reads a r) : Completes s (.jmp a) (s.setPc (s.getReg r))
  | jeq {a r} (hr : s.Reads a r) (hf : s.written.flWritten = true) :
      Completes s (.jeq a)
        (if flagBitE s.fl then s.setPc (s.getReg r) else s.setPc (narrow (s.pcAfter .jeq)))
  | jne {a r} (hr : s.Reads a r) (hf : s.written.flWritten = true) :
      Completes s (.jne a)
        (if flagBitE s.fl then s.setPc (narrow (s.pcAfter .jne)) else s.setPc (s.getReg r))

/-- `FailsCheck s i c`: a check of the handler of `i`, run on `s`, raises `c` (60_exceptions.md R91 to R94). -/
inductive FailsCheck (s : State) : Instr → Anomaly → Prop
  | badRegister {i v} (hv : v ∈ i.regOperands) (h : 7 < v.toNat) : FailsCheck s i (.badRegister v)
  | unwrittenReg {i v} {r : RegIdx} (hv : v ∈ i.srcOperands) (hr : r.val = v.toNat)
      (h : s.written.regWritten r = false) : FailsCheck s i (.unwrittenRead (.reg r))
  | unwrittenFl {i} (hi : i.mnemonic ∈ [.jeq, .jne]) (h : s.written.flWritten = false) :
      FailsCheck s i (.unwrittenRead .fl)
  | spBelowZero {i} (hi : i.mnemonic ∈ [.push, .call]) (h : s.sp = 0#8) : FailsCheck s i (.stackOutOfRange (-1))
  | popPastTop {a} {r : RegIdx} (hr : r.val = a.toNat) (h : (s.setReg r (s.readMem s.sp)).sp = 255#8) :
      FailsCheck s (.pop a) (.stackOutOfRange 256)
  | retPastTop (h : s.sp = 255#8) : FailsCheck s .ret (.stackOutOfRange 256)

/-- The answer `h` of a handler of `i`, run on `s`, is one that the two lists have. -/
def HandlerOutcome (s : State) (i : Instr) (h : Except Anomaly State) : Prop :=
  match h with
  | .ok u => Completes s i u
  | .error c => FailsCheck s i c

namespace HandlerOutcome

variable {s : State} {i : Instr}

/-- A check followed by the rest of the handler: either the check's anomaly, or the rest with the checked value. -/
theorem bind {α : Type} {x : Except Anomaly α} {f : α → Except Anomaly State}
    (hfail : ∀ c, x = .error c → FailsCheck s i c) (hrest : ∀ v, x = .ok v → HandlerOutcome s i (f v)) :
    HandlerOutcome s i (x >>= f) := by
  cases x with
  | error c => exact hfail c rfl
  | ok v => exact hrest v rfl

theorem idx_bind {a : Byte} {f : RegIdx → Except Anomaly State} (ha : a ∈ i.regOperands)
    (hrest : ∀ r : RegIdx, r.val = a.toNat → HandlerOutcome s i (f r)) : HandlerOutcome s i (idx a >>= f) := by
  refine bind (fun c hc => ?_) fun r hr => hrest r (idx_eq_ok_iff.1 hr)
  obtain ⟨h7, rfl⟩ := idx_eq_error_iff.1 hc
  exact .badRegister ha h7

/-- The read of a register on a working copy `s'` that has the written bits of `s`. -/
theorem readReg_bind {s' : State} {a : Byte} {r : RegIdx} {f : Byte → Except Anomaly State} (ha : a ∈ i.srcOperands)
    (hr : r.val = a.toNat)
    (hw : s'.written.regWritten r = s.written.regWritten r)
    (hrest : s.Reads a r → HandlerOutcome s i (f (s'.getReg r))) : HandlerOutcome s i (s'.readReg r >>= f) := by
  refine bind (fun c hc => ?_) fun v hv => ?_
  · obtain ⟨hclear, rfl⟩ := State.readReg_eq_error_iff.1 hc
    exact .unwrittenReg ha hr (hw ▸ hclear)
  · obtain ⟨hset, rfl⟩ := State.readReg_eq_ok_iff.1 hv
    exact hrest ⟨hr, hw ▸ hset⟩

theorem rd_bind {a : Byte} {f : Byte → Except Anomaly State} (ha : a ∈ i.srcOperands)
    (hrest : ∀ r, s.Reads a r → HandlerOutcome s i (f (s.getReg r))) :
    HandlerOutcome s i (s.rd a >>= f) := by
  rw [State.rd, bind_assoc]
  exact idx_bind (Instr.mem_regOperands_of_src ha) fun r hr => readReg_bind ha hr rfl (hrest r)

theorem rdFL_bind {f : Byte → Except Anomaly State} (hi : i.mnemonic ∈ [.jeq, .jne])
    (hrest : s.written.flWritten = true → HandlerOutcome s i (f s.fl)) : HandlerOutcome s i (s.rdFL >>= f) := by
  refine bind (fun c hc => ?_) fun v hv => ?_
  · obtain ⟨hclear, rfl⟩ := State.rdFL_eq_error_iff.1 hc
    exact .unwrittenFl hi hclear
  · obtain ⟨hset, rfl⟩ := State.rdFL_eq_ok_iff.1 hv
    exact hrest hset

theorem decSp_bind {f : State → Except Anomaly State} (hi : i.mnemonic ∈ [.push, .call])
    (hrest : 1 ≤ s.sp.toNat → HandlerOutcome s i (f s.pushed)) : HandlerOutcome s i (s.decSp >>= f) := by
  refine bind (fun c hc => ?_) fun t ht => ?_
  · obtain ⟨hzero, rfl⟩ := State.decSp_eq_error_iff.1 hc
    exact .spBelowZero hi hzero
  · obtain ⟨hsp, rfl⟩ := State.decSp_eq_ok_iff.1 ht
    exact hrest hsp

/-- The increment of SP on a working copy `s'`, where SP = 255 is a check of `i` that fails. -/
theorem incSp_bind {s' : State} {f : State → Except Anomaly State}
    (htop : s'.sp = 255#8 → FailsCheck s i (.stackOutOfRange 256))
    (hrest : s'.sp.toNat + 1 ≤ 255 → HandlerOutcome s i (f s'.popped)) : HandlerOutcome s i (s'.incSp >>= f) := by
  refine bind (fun c hc => ?_) fun t ht => ?_
  · obtain ⟨h255, rfl⟩ := State.incSp_eq_error_iff.1 hc
    exact htop h255
  · obtain ⟨hsp, rfl⟩ := State.incSp_eq_ok_iff.1 ht
    exact hrest hsp

/-- The shared handler of the instructions with two register sources. -/
theorem of_aluTwo {m : Mnemonic} {a b : Byte} (ha : a ∈ i.srcOperands) (hb : b ∈ i.srcOperands)
    (hok : ∀ p q, s.Reads a p → s.Reads b q →
      Completes s i (s.writeBack p (aluDispatch m (s.getReg p) (s.getReg q)))) :
    HandlerOutcome s i (aluTwo m a b s) :=
  idx_bind (Instr.mem_regOperands_of_src ha) fun p hp =>
    readReg_bind ha hp rfl fun hp' => rd_bind hb fun q hq => hok p q hp' hq

/-- The shared handler of the instructions with one register source. -/
theorem of_aluOne {m : Mnemonic} {a : Byte} (ha : a ∈ i.srcOperands)
    (hok : ∀ p, s.Reads a p → Completes s i (s.writeBack p (aluDispatch m (s.getReg p) 0x00#8))) :
    HandlerOutcome s i (aluOne m a s) :=
  idx_bind (Instr.mem_regOperands_of_src ha) fun p hp => readReg_bind ha hp rfl fun hp' => hok p hp'

end HandlerOutcome

/-- Every instruction ends by `complete` on an answer that the two lists have. -/
theorem exec_eq_complete_outcome (i : Instr) (s : State) :
    ∃ h, exec i s = complete i.mnemonic s h ∧ HandlerOutcome s i h := by
  cases i with
  | hlt => exact ⟨.ok (s.setRun .halted), rfl, .hlt⟩
  | ldi a b => exact ⟨_, rfl, .idx_bind (.head _) fun _ hr => .ldi hr⟩
  | prn a => exact ⟨_, rfl, .rd_bind (.head _) fun _ hr => .prn hr⟩
  | push a =>
    exact ⟨_, rfl, .idx_bind (.head _) fun r hr => .decSp_bind (.head _) fun hsp =>
      .readReg_bind (.head _) hr (WrittenBits.regWritten_markReg_sp ..) fun hr' => .push hr' hsp⟩
  | pop a =>
    refine ⟨_, rfl, .idx_bind (.head _) fun r hr => ?_⟩
    rw [← bind_pure (State.incSp _)]
    exact .incSp_bind (.popPastTop hr) fun hsp => .pop hr hsp
  | call a =>
    refine ⟨_, rfl, .idx_bind (.head _) fun r hr => ?_⟩
    rw [State.stackPush, bind_assoc]
    exact .decSp_bind (.tail _ (.head _)) fun hsp =>
      .readReg_bind (.head _) hr (WrittenBits.regWritten_markReg_sp ..) fun hr' => .call hr' hsp
  | ret =>
    refine ⟨_, rfl, ?_⟩
    rw [State.stackPop, bind_assoc]
    exact .incSp_bind .retPastTop fun hsp => .ret hsp
  | add a b => exact ⟨_, rfl, .of_aluTwo (.head _) (.tail _ (.head _)) fun _ _ hp hq => .add hp hq⟩
  | sub a b => exact ⟨_, rfl, .of_aluTwo (.head _) (.tail _ (.head _)) fun _ _ hp hq => .sub hp hq⟩
  | mul a b => exact ⟨_, rfl, .of_aluTwo (.head _) (.tail _ (.head _)) fun _ _ hp hq => .mul hp hq⟩
  | inc a => exact ⟨_, rfl, .of_aluOne (.head _) fun _ hp => .inc hp⟩
  | dec a => exact ⟨_, rfl, .of_aluOne (.head _) fun _ hp => .dec hp⟩
  | cmp a b => exact ⟨_, rfl, .of_aluTwo (.head _) (.tail _ (.head _)) fun _ _ hp hq => .cmp hp hq⟩
  | jmp a => exact ⟨_, rfl, .rd_bind (.head _) fun _ hr => .jmp hr⟩
  | jeq a =>
    exact ⟨_, rfl, .rd_bind (.head _) fun _ hr => .rdFL_bind (.head _) fun hf => .jeq hr hf⟩
  | jne a =>
    exact ⟨_, rfl, .rd_bind (.head _) fun _ hr => .rdFL_bind (.tail _ (.head _)) fun hf => .jne hr hf⟩

end Sys2Proof.Machine

/-! ## What a step can do -/

namespace Sys2Proof.Machine

/-- The end of an instruction whose checks passed: a working copy is advanced unless S = 1 (40_cycle.md R57, R58). -/
def finish (m : Mnemonic) (u : State) : State := if m.setsPc then u else u.advance m

/-- `StepTo s t`: the four ways in which a step of a Running machine takes `s` to `t` (40_cycle.md R53 to R58). -/
inductive StepTo (s : State) : State → Prop
  | fetchOutOfRange (hpc : 253 < s.pc.toNat) : StepTo s (s.raise (.fetchOutOfRange s.pc))
  | illegalOpcode (hpc : s.pc.toNat ≤ 253) (hop : lookupOpcode defaultOpcodeMap (s.readMem s.pc) = none) :
      StepTo s (s.latch.raise (.illegalOpcode (s.readMem s.pc)))
  | failsCheck {i c} (hpc : s.pc.toNat ≤ 253)
      (hi : decode (s.readMem s.pc) (s.readMem (s.pc + 1#8)) (s.readMem (s.pc + 2#8)) = .ok i)
      (hc : FailsCheck s.latch i c) : StepTo s (s.latch.raise c)
  | completes {i u} (hpc : s.pc.toNat ≤ 253)
      (hi : decode (s.readMem s.pc) (s.readMem (s.pc + 1#8)) (s.readMem (s.pc + 2#8)) = .ok i)
      (hu : Completes s.latch i u) : StepTo s (finish i.mnemonic u)

theorem exec_eq_next_cases {i : Instr} {s t : State} (h : exec i s = .next t) :
    (∃ c, FailsCheck s i c ∧ t = s.raise c) ∨ ∃ u, Completes s i u ∧ t = finish i.mnemonic u := by
  obtain ⟨out, hexec, hout⟩ := exec_eq_complete_outcome i s
  rw [hexec] at h
  cases out with
  | error c => exact .inl ⟨c, hout, (Host.Outcome.next.inj h).symm⟩
  | ok u => exact .inr ⟨u, hout, (Host.Outcome.next.inj h).symm⟩

theorem stepTo_of_step {s t : State} (h : step s = .next t) : s.run = .running ∧ StepTo s t := by
  obtain ⟨hrun, ⟨hpc, rfl⟩ | ⟨hpc, hop, rfl⟩ | ⟨hpc, i, hi, hexec⟩⟩ := step_eq_next_iff.1 h
  · exact ⟨hrun, .fetchOutOfRange hpc⟩
  · exact ⟨hrun, .illegalOpcode hpc hop⟩
  · obtain ⟨c, hc, rfl⟩ | ⟨u, hu, rfl⟩ := exec_eq_next_cases hexec
    · exact ⟨hrun, .failsCheck hpc hi hc⟩
    · exact ⟨hrun, .completes hpc hi hu⟩

/-! ### The end of an instruction changes only pc and the run state -/

@[simp] theorem finish_mem (m : Mnemonic) (u : State) : (finish m u).mem = u.mem := by
  unfold finish; split <;> simp

@[simp] theorem finish_fl (m : Mnemonic) (u : State) : (finish m u).fl = u.fl := by
  unfold finish; split <;> simp

@[simp] theorem finish_out (m : Mnemonic) (u : State) : (finish m u).out = u.out := by
  unfold finish; split <;> simp

@[simp] theorem finish_written (m : Mnemonic) (u : State) : (finish m u).written = u.written := by
  unfold finish; split <;> simp

@[simp] theorem finish_resetMode (m : Mnemonic) (u : State) : (finish m u).resetMode = u.resetMode := by
  simp [State.resetMode]

/-- All that the end of an instruction can do with the run state: only an advance past 255 faults. -/
theorem finish_run_cases (m : Mnemonic) (u : State) :
    (finish m u).run = u.run ∨
      m.setsPc = false ∧ u.run = .running ∧ 255 < u.pcAfter m ∧ finish m u = u.raise (.pcOutOfRange (u.pcAfter m)) := by
  unfold finish
  cases hS : m.setsPc with
  | true => exact .inl rfl
  | false =>
    obtain ⟨-, e⟩ | ⟨-, -, e⟩ | ⟨hrun, hlt, e⟩ := State.advance_cases u m
    · exact .inl (by simp [e])
    · exact .inl (by simp [e])
    · exact .inr ⟨rfl, hrun, hlt, e⟩

theorem finish_halted_iff (m : Mnemonic) (u : State) : (finish m u).run = .halted ↔ u.run = .halted := by
  obtain e | ⟨-, hrun, -, e⟩ := finish_run_cases m u
  · rw [e]
  · simp [e, hrun]

/-! ### What a completed handler leaves unchanged -/

section
variable {s u : State} {i : Instr}

/-- No handler but CMP's writes FL (10_state.md R16). -/
theorem Completes.flagsSame (h : Completes s i u) (hi : i.mnemonic ≠ .cmp) : FlagsSame s u := by
  cases h with
  | cmp => exact absurd rfl hi
  | jeq | jne => split <;> exact ⟨rfl, rfl⟩
  | _ => simp [FlagsSame, State.pushed, State.popped]

theorem Completes.fl_of_cmp (h : Completes s i u) (hi : i.mnemonic = .cmp) : ∃ x y, u.fl = compareFlags x y := by
  cases h with
  | cmp => exact ⟨_, _, rfl⟩
  | _ => exact nomatch hi

/-- Only a PRN's handler emits, the value of the register its operand names (10_state.md R20). -/
theorem Completes.out_cases (h : Completes s i u) :
    u.out = s.out ∨ ∃ a r, i = .prn a ∧ s.Reads a r ∧ u.out = s.out ++ [s.getReg r] := by
  cases h with
  | prn hr => exact .inr ⟨_, _, rfl, hr, rfl⟩
  | jeq | jne => exact .inl (by split <;> rfl)
  | _ => exact .inl rfl

/-- Only HLT's handler changes the run state (46_halt.md R87). -/
theorem Completes.run_cases (h : Completes s i u) : (i = .hlt ∧ u.run = .halted) ∨ (i ≠ .hlt ∧ u.run = s.run) := by
  cases h with
  | hlt => exact .inl ⟨rfl, rfl⟩
  | jeq | jne => exact .inr ⟨nofun, by split <;> rfl⟩
  | _ => exact .inr ⟨nofun, rfl⟩

theorem Completes.resetMode_eq (h : Completes s i u) : u.resetMode = s.resetMode := by
  cases h with
  | jeq | jne => split <;> rfl
  | _ => simp [State.pushed, State.popped]

/-- A handler sets written bits and clears none (10_state.md R22). -/
theorem Completes.regWritten (h : Completes s i u) {q : RegIdx} (hq : s.written.regWritten q = true) :
    u.written.regWritten q = true := by
  cases h with
  | jeq | jne => split <;> exact hq
  | _ => simp [State.pushed, State.popped, WrittenBits.regWritten_markReg_of, hq]

theorem Completes.flWritten (h : Completes s i u) (hf : s.written.flWritten = true) : u.written.flWritten = true := by
  by_cases hi : i.mnemonic = .cmp
  · cases h with
    | cmp => exact WrittenBits.flWritten_markFL _
    | _ => exact nomatch hi
  · exact (h.flagsSame hi).2.trans hf

theorem Completes.memWf (h : Completes s i u) (hm : Memory.wf s.mem = true) : Memory.wf u.mem = true := by
  cases h with
  | push | call => exact State.writeMem_wf _ _ hm
  | jeq | jne => split <;> exact hm
  | _ => exact hm

/-- PUSH and CALL alone write memory, and they are no longer than two bytes. -/
theorem Completes.mem_of_len_three (h : Completes s i u) (hlen : i.mnemonic.len = 3) : u.mem = s.mem := by
  cases h with
  | push | call => exact nomatch hlen
  | jeq | jne => split <;> rfl
  | _ => rfl

/-- A handler with S = 0 leaves pc to the Advance phase (40_cycle.md R57). -/
theorem Completes.pc_eq (h : Completes s i u) (hS : i.mnemonic.setsPc = false) : u.pc = s.pc := by
  cases h with
  | call | ret | jmp | jeq | jne => exact nomatch hS
  | _ => rfl

theorem Completes.latchIR_eq (h : Completes s i u) : u.latchIR = s.latchIR := by
  cases h with
  | jeq | jne => split <;> rfl
  | _ => rfl

end

/-- HLT has no check that can fail (46_halt.md R87). -/
theorem not_failsCheck_hlt {s : State} {c : Anomaly} : ¬ FailsCheck s .hlt c := by
  intro h
  cases h with
  | badRegister hv => exact nomatch hv
  | unwrittenReg hv => exact nomatch hv
  | unwrittenFl hi => exact absurd hi (by decide)
  | spBelowZero hi => exact absurd hi (by decide)

end Sys2Proof.Machine

/-! ## The invariant -/

namespace Sys2Proof.Machine

/-- FL stays legal where FL, its written bit and the RESET_MODE stay. -/
theorem State.flagsLegal_of_same {s t : State} (h : s.flagsLegal) (hsame : FlagsSame s t)
    (hmode : t.resetMode = s.resetMode) : t.flagsLegal := by
  obtain ⟨hfl, hw⟩ := hsame
  unfold State.flagsLegal
  rw [hfl, hw, hmode]
  exact h

/-- A comparison gives one of the three legal values. -/
theorem State.flagsLegal_of_compare {s : State} {x y : Byte} (h : s.fl = compareFlags x y) : s.flagsLegal := by
  unfold State.flagsLegal
  rw [h]
  unfold compareFlags
  split
  · exact .inl rfl
  · split
    · exact .inr (.inl rfl)
    · exact .inr (.inr (.inl rfl))

theorem Completes.flagsLegal {s u : State} {i : Instr} (h : Completes s i u) (hs : s.flagsLegal) : u.flagsLegal := by
  by_cases hi : i.mnemonic = .cmp
  · obtain ⟨x, y, hfl⟩ := h.fl_of_cmp hi
    exact State.flagsLegal_of_compare hfl
  · exact State.flagsLegal_of_same hs (h.flagsSame hi) h.resetMode_eq

/-- What an info can be does not depend on the run state. -/
@[simp] theorem Anomaly.legalIn_raise (c d : Anomaly) (s : State) (fop : Byte) :
    c.legalIn (s.raise d) fop ↔ c.legalIn s fop := by
  rcases c with _ | _ | _ | (_ | _) | _ | _ <;> exact Iff.rfl

/-- A check that fails raises an anomaly with an info its cause can have (60_exceptions.md R91 to R94). -/
theorem FailsCheck.legalIn {s : State} {i : Instr} {c : Anomaly} (h : FailsCheck s i c) (fop : Byte) :
    c.legalIn s fop := by
  cases h with
  | badRegister _ h7 => exact h7
  | unwrittenReg _ _ hclear =>
    refine ⟨hclear, fun hsp => ?_⟩
    rw [hsp, WrittenBits.regWritten_spIndex] at hclear
    exact nomatch hclear
  | unwrittenFl _ hclear => exact hclear
  | spBelowZero => exact .inl rfl
  | popPastTop => exact .inr rfl
  | retPastTop => exact .inr rfl

/-- A failing check is no failed fetch, so the opcode byte it records is the latched one. -/
theorem FailsCheck.faultOpcode_eq {s : State} {i : Instr} {c : Anomaly} (h : FailsCheck s i c) :
    s.faultOpcode c = s.latchIR := by
  cases h <;> rfl

theorem State.recordLegal_of_run {s : State} (h : ∀ r, s.run ≠ .faulted r) : s.recordLegal :=
  fun r hr => absurd hr (h r)

/-- The record that `raise` makes fits the state where its info is legal and its opcode byte is the one at pc. -/
theorem State.recordLegal_raise {s : State} {c : Anomaly} (hop : s.faultOpcode c = s.readMem s.pc)
    (hc : c.legalIn s (s.faultOpcode c)) : (s.raise c).recordLegal := by
  intro r hr
  obtain rfl := RunState.faulted.inj hr
  exact ⟨rfl, hop, (Anomaly.legalIn_raise ..).2 hc⟩

theorem Mnemonic.len_le_three (m : Mnemonic) : m.len ≤ 3 := by cases m <;> decide

/-- The record of a completed instruction: only an advance from pc = 253 by three bytes faults, and such an
instruction writes no memory, so the byte at pc is still the one latched (60_exceptions.md R95). -/
theorem Completes.recordLegal_finish {s u : State} {i : Instr} (h : Completes s.latch i u) (hrun : s.run = .running)
    (hpc : s.pc.toNat ≤ 253) : (finish i.mnemonic u).recordLegal := by
  obtain e | ⟨hS, -, hlt, e⟩ := finish_run_cases i.mnemonic u
  · refine State.recordLegal_of_run fun r => ?_
    rw [e]
    obtain ⟨-, hu⟩ | ⟨-, hu⟩ := h.run_cases <;> simp [hu, hrun]
  · have hupc : u.pc = s.pc := h.pc_eq hS
    have hlen := Mnemonic.len_le_three i.mnemonic
    rw [State.pcAfter_eq, hupc] at hlt
    have hmem : u.mem = s.mem := h.mem_of_len_three (by omega)
    rw [e]
    refine State.recordLegal_raise ?_ ⟨?_, BitVec.eq_of_toNat_eq ?_⟩
    · calc
        u.latchIR = s.readMem s.pc := h.latchIR_eq
        _ = u.readMem u.pc := by rw [State.readMem, State.readMem, hupc, hmem]
    · rw [State.pcAfter_eq, hupc]
      omega
    · rw [hupc]
      change s.pc.toNat = 253
      omega

theorem StepTo.memWf {s t : State} (h : StepTo s t) (hs : Memory.wf s.mem = true) : Memory.wf t.mem = true := by
  cases h with
  | fetchOutOfRange | illegalOpcode | failsCheck => exact hs
  | completes _ _ hu =>
    rw [finish_mem]
    exact hu.memWf hs

theorem StepTo.flagsLegal {s t : State} (h : StepTo s t) (hs : s.flagsLegal) : t.flagsLegal := by
  cases h with
  | fetchOutOfRange | illegalOpcode | failsCheck => exact hs
  | completes _ _ hu => exact State.flagsLegal_of_same (hu.flagsLegal hs) (by simp [FlagsSame]) (by simp)

theorem StepTo.recordLegal {s t : State} (h : StepTo s t) (hrun : s.run = .running) : t.recordLegal := by
  cases h with
  | fetchOutOfRange hpc => exact State.recordLegal_raise rfl ⟨rfl, hpc⟩
  | illegalOpcode _ hop => exact State.recordLegal_raise rfl ⟨rfl, hop⟩
  | failsCheck _ _ hc => exact State.recordLegal_raise hc.faultOpcode_eq (hc.legalIn _)
  | completes hpc _ hu => exact hu.recordLegal_finish hrun hpc

/-- Settles O49: each part of the invariant is kept by each of the four ways a step can go. The Faulted record is
made by the step itself, so it does not rest on the invariant before. -/
theorem everyStepKeepsTheInvariant : Obligations.EveryStepKeepsTheInvariant := by
  rintro s t ⟨hmem, hflags, -⟩ h
  obtain ⟨hrun, hstep⟩ := stepTo_of_step h
  exact ⟨hstep.memWf hmem, hstep.flagsLegal hflags, hstep.recordLegal hrun⟩

/-- Settles O48: after reset memory is empty, FL is its reset value with no CMP counted, and the machine runs. -/
theorem resetMeetsTheInvariant : Obligations.ResetMeetsTheInvariant := by
  have hreset : ∀ mode, (State.resetIn mode).Inv := fun mode =>
    { memWf := rfl
      flags := by
        refine .inr (.inr (.inr ⟨rfl, fun hmode => ?_⟩))
        cases mode with
        | unwritten => rfl
        | zero => exact nomatch hmode
      record := State.recordLegal_of_run nofun }
  exact ⟨hreset .zero, hreset⟩

/-! ## Who may change what -/

/-- Settles O34: an anomaly leaves FL alone, and of the handlers only CMP's writes it. -/
theorem onlyCmpChangesTheFlagRegister : Obligations.OnlyCmpChangesTheFlagRegister := by
  intro s t h hop
  obtain ⟨-, hstep⟩ := stepTo_of_step h
  cases hstep with
  | fetchOutOfRange | illegalOpcode | failsCheck => exact ⟨rfl, rfl⟩
  | completes _ hi hu =>
    rw [← (opcode_of_decode hi).1] at hop
    simpa [FlagsSame] using hu.flagsSame fun hcmp => hop (congrArg defaultOpcodeMap hcmp)

/-- Settles O36: an anomaly leaves the output alone, and of the handlers only PRN's emits. -/
theorem onlyPrnWritesOutput : Obligations.OnlyPrnWritesOutput := by
  intro s t h
  obtain ⟨-, hstep⟩ := stepTo_of_step h
  cases hstep with
  | fetchOutOfRange | illegalOpcode | failsCheck => exact .inl rfl
  | completes _ hi hu =>
    rw [finish_out]
    obtain hsame | ⟨a, r, rfl, ⟨hr, -⟩, hout⟩ := hu.out_cases
    · exact .inl hsame
    · obtain ⟨hop, ha⟩ := opcode_of_decode hi
      exact .inr ⟨hop.symm, r, hr.trans (congrArg BitVec.toNat (Instr.prn.inj ha)), hout⟩

/-- Settles O37: an anomaly leaves the machine Faulted, and of the handlers only HLT's, which has no check to fail,
halts. -/
theorem onlyHltHalts : Obligations.OnlyHltHalts := by
  intro s t h
  obtain ⟨hrun, hstep⟩ := stepTo_of_step h
  cases hstep with
  | fetchOutOfRange hpc => exact ⟨nofun, fun ⟨hle, _⟩ => absurd hpc (by omega)⟩
  | illegalOpcode _ hop =>
    refine ⟨nofun, fun ⟨_, hhlt⟩ => ?_⟩
    rw [hhlt] at hop
    exact nomatch hop
  | failsCheck _ hi hc =>
    refine ⟨nofun, fun ⟨_, hhlt⟩ => ?_⟩
    rw [← (opcode_of_decode hi).1, opcode_eq_hlt_iff] at hhlt
    subst hhlt
    exact absurd hc not_failsCheck_hlt
  | completes hpc hi hu =>
    rw [finish_halted_iff, ← (opcode_of_decode hi).1, opcode_eq_hlt_iff]
    obtain ⟨hhlt, hhalted⟩ | ⟨hne, hsame⟩ := hu.run_cases
    · simp [hhlt, hhalted, hpc]
    · simp [hne, hsame, hrun]

/-- Settles O42: an anomaly leaves the written bits alone, and a handler only sets them. -/
theorem writtenBitsAreNeverCleared : Obligations.WrittenBitsAreNeverCleared := by
  intro s t h
  obtain ⟨-, hstep⟩ := stepTo_of_step h
  cases hstep with
  | fetchOutOfRange | illegalOpcode | failsCheck =>
    exact ⟨rfl, fun _ hq => hq, fun hf => hf, WrittenBits.regWritten_spIndex _⟩
  | completes _ _ hu =>
    rw [finish_resetMode, finish_written]
    exact ⟨hu.resetMode_eq, fun _ => hu.regWritten, hu.flWritten, WrittenBits.regWritten_spIndex _⟩

/-! ## The latches -/

/-- States of one observation differ in the latches alone, and the fetch loads those. -/
theorem latch_eq_of_observe_eq {s t : State} (h : s.observe = t.observe) : s.latch = t.latch := by
  cases s
  cases t
  obtain ⟨rfl, rfl, rfl, rfl, rfl, rfl, rfl⟩ := Observation.mk.inj h
  rfl

theorem runStepsWith_of_stopped {map : OpcodeMap} {s : State} (h : s.run ≠ .running) (k : Nat) :
    runStepsWith map k s = s := by
  cases k with
  | zero => rfl
  | succ k =>
    unfold runStepsWith stepWith
    cases hr : s.run with
    | running => exact absurd hr h
    | halted => rfl
    | faulted r => rfl

/-- A fetch that succeeds gives states of one observation the same latches, hence the same step. -/
theorem stepWith_eq_of_observe_eq {map : OpcodeMap} {s t : State} (h : s.observe = t.observe)
    (hrun : s.run = .running) (hpc : s.pc.toNat ≤ 253) : stepWith map s = stepWith map t := by
  have htrun : t.run = .running := (congrArg Observation.run h).symm.trans hrun
  have hpcs : s.pc = t.pc := congrArg Observation.pc h
  have htpc : t.pc.toNat ≤ 253 := hpcs ▸ hpc
  unfold stepWith
  rw [hrun, htrun, State.fetch_eq_ok_iff.2 ⟨hpc, rfl⟩, State.fetch_eq_ok_iff.2 ⟨htpc, rfl⟩, latch_eq_of_observe_eq h]

/-- A failed fetch stops the machine at once. -/
theorem runStepsWith_succ_of_fetchOutOfRange {map : OpcodeMap} {s : State} (hrun : s.run = .running)
    (hpc : 253 < s.pc.toNat) (k : Nat) : runStepsWith map (k + 1) s = s.raise (.fetchOutOfRange s.pc) := by
  rw [runStepsWith, stepWith_eq_next_iff.2 ⟨hrun, .inl ⟨hpc, rfl⟩⟩]
  exact runStepsWith_of_stopped (by simp) k

/-- The record of a failed fetch does not name the latches. -/
theorem observe_raise_fetchOutOfRange {s t : State} (h : s.observe = t.observe) :
    (s.raise (.fetchOutOfRange s.pc)).observe = (t.raise (.fetchOutOfRange t.pc)).observe := by
  cases s
  cases t
  obtain ⟨rfl, rfl, rfl, rfl, rfl, rfl, rfl⟩ := Observation.mk.inj h
  rfl

/-- Runs from states of one observation have one observation, under any opcode map. The first step decides: the fetch
loads the latches, or the machine stops. -/
theorem observe_runStepsWith {map : OpcodeMap} {s t : State} (h : s.observe = t.observe) (k : Nat) :
    (runStepsWith map k s).observe = (runStepsWith map k t).observe := by
  have hrun : s.run = t.run := congrArg Observation.run h
  have hpc : s.pc = t.pc := congrArg Observation.pc h
  cases k with
  | zero => exact h
  | succ k =>
    by_cases hr : s.run = .running
    · by_cases hp : s.pc.toNat ≤ 253
      · rw [runStepsWith, runStepsWith, ← stepWith_eq_of_observe_eq h hr hp]
        cases stepWith map s with
        | next u => rfl
        | fault | refused => exact h
      · have hp' : 253 < s.pc.toNat := by omega
        rw [runStepsWith_succ_of_fetchOutOfRange hr hp',
          runStepsWith_succ_of_fetchOutOfRange (hrun ▸ hr) (hpc ▸ hp')]
        exact observe_raise_fetchOutOfRange h
    · rw [runStepsWith_of_stopped hr, runStepsWith_of_stopped (hrun ▸ hr)]
      exact h

/-- Settles O43: states that differ in the latches have one observation, and so do their runs. -/
theorem latchesAreNotObservable : Obligations.LatchesAreNotObservable := by
  intro s x y z k
  have hsame : State.observe { s with latchIR := x, latchA := y, latchB := z } = s.observe := rfl
  exact observe_runStepsWith hsame k

/-! ## Canonical memories -/

theorem Memory.readCell_cons_self (k : Nat) (v : Byte) (m : Memory) : Memory.readCell ((k, v) :: m) k = v := by
  simp [Memory.readCell]

theorem Memory.readCell_cons_ne {k n : Nat} (v : Byte) (m : Memory) (h : k ≠ n) :
    Memory.readCell ((k, v) :: m) n = Memory.readCell m n := by
  simp [Memory.readCell, h]

/-- The first cell of a canonical list is the lowest address that reads as something else than an unlisted cell. -/
theorem Memory.head_le_of_readCell_ne {lo : Option Nat} {k n : Nat} {v : Byte} {m : Memory}
    (hm : Memory.wfAbove lo ((k, v) :: m) = true) (hn : Memory.readCell ((k, v) :: m) n ≠ Memory.unlisted) : k ≤ n := by
  by_contra hlt
  obtain ⟨-, hk, hv, hrest⟩ := (Memory.wfAbove_cons ..).1 hm
  have habove : Memory.wfAbove (some n) ((k, v) :: m) = true :=
    (Memory.wfAbove_cons ..).2 ⟨fun l e => by cases e; omega, hk, hv, hrest⟩
  exact hn (Memory.readCell_of_wfAbove habove (Nat.le_refl n))

/-- Canonical lists that read alike have the same first cell, and their rests read alike: at its address both rests
read as unlisted. -/
theorem Memory.eq_of_wfAbove {lo : Option Nat} {m m' : Memory} (hm : Memory.wfAbove lo m = true)
    (hm' : Memory.wfAbove lo m' = true) (h : ∀ n, n < 256 → Memory.readCell m n = Memory.readCell m' n) : m = m' := by
  induction m generalizing lo m' with
  | nil =>
    cases m' with
    | nil => rfl
    | cons c' m' =>
      obtain ⟨k', v'⟩ := c'
      obtain ⟨-, hk', hv', -⟩ := (Memory.wfAbove_cons ..).1 hm'
      have hread := h k' hk'
      rw [Memory.readCell_cons_self] at hread
      exact absurd hread.symm hv'
  | cons c m ih =>
    obtain ⟨k, v⟩ := c
    obtain ⟨-, hk, hv, hrest⟩ := (Memory.wfAbove_cons ..).1 hm
    have hreadk := h k hk
    rw [Memory.readCell_cons_self] at hreadk
    cases m' with
    | nil => exact absurd hreadk hv
    | cons c' m' =>
      obtain ⟨k', v'⟩ := c'
      obtain ⟨-, hk', hv', hrest'⟩ := (Memory.wfAbove_cons ..).1 hm'
      have hreadk' := h k' hk'
      rw [Memory.readCell_cons_self] at hreadk'
      obtain rfl : k = k' := Nat.le_antisymm (Memory.head_le_of_readCell_ne hm (hreadk' ▸ hv'))
        (Memory.head_le_of_readCell_ne hm' (hreadk ▸ hv))
      obtain rfl : v = v' := hreadk.trans (Memory.readCell_cons_self ..)
      refine congrArg _ (ih hrest hrest' fun n hn => ?_)
      by_cases hnk : k = n
      · subst hnk
        rw [Memory.readCell_of_wfAbove hrest (Nat.le_refl k), Memory.readCell_of_wfAbove hrest' (Nat.le_refl k)]
      · have hread := h n hn
        rwa [Memory.readCell_cons_ne v m hnk, Memory.readCell_cons_ne v m' hnk] at hread

/-- Settles O45, the case of no lower bound. -/
theorem canonicalMemoriesThatReadAlikeAreEqual : Obligations.CanonicalMemoriesThatReadAlikeAreEqual :=
  fun _ _ hm hm' h => Memory.eq_of_wfAbove hm hm' h

end Sys2Proof.Machine

/-! ## Reads after writes -/

namespace Sys2Proof.Machine

/-- A cell put in front of a list that has nothing at or below it reads as its value, also where it is left out. -/
theorem Memory.readCell_consCell_self {n : Nat} (v : Byte) {m : Memory} (hm : Memory.wfAbove (some n) m = true) :
    Memory.readCell (Memory.consCell n v m) n = v := by
  unfold Memory.consCell
  split
  · next hv => rw [hv, Memory.readCell_of_wfAbove hm (Nat.le_refl n)]
  · exact Memory.readCell_cons_self ..

theorem Memory.readCell_consCell_ne {n q : Nat} (v : Byte) (m : Memory) (h : q ≠ n) :
    Memory.readCell (Memory.consCell n v m) q = Memory.readCell m q := by
  unfold Memory.consCell
  split
  · rfl
  · exact Memory.readCell_cons_ne v m h.symm

/-- In a list that is not canonical a write of 0x00, which lists no cell, could leave an older one further on. -/
theorem Memory.readCell_writeCell_self {lo : Option Nat} {m : Memory} (n : Nat) (v : Byte)
    (hm : Memory.wfAbove lo m = true) : Memory.readCell (Memory.writeCell m n v) n = v := by
  induction m generalizing lo with
  | nil => exact Memory.readCell_consCell_self v rfl
  | cons c m ih =>
    obtain ⟨k, w⟩ := c
    obtain ⟨-, hk, hw, hrest⟩ := (Memory.wfAbove_cons ..).1 hm
    unfold Memory.writeCell
    split
    · next hnk =>
      exact Memory.readCell_consCell_self v
        ((Memory.wfAbove_cons ..).2 ⟨fun l e => Option.some.inj e ▸ hnk, hk, hw, hrest⟩)
    · split
      · next hnk => exact Memory.readCell_consCell_self v (hnk ▸ hrest)
      · next hnk => rw [Memory.readCell_cons_ne w _ (Ne.symm hnk), ih hrest]

theorem Memory.readCell_writeCell_ne {n q : Nat} (v : Byte) (m : Memory) (h : q ≠ n) :
    Memory.readCell (Memory.writeCell m n v) q = Memory.readCell m q := by
  induction m with
  | nil => exact Memory.readCell_consCell_ne v [] h
  | cons c m ih =>
    obtain ⟨k, w⟩ := c
    unfold Memory.writeCell
    split
    · exact Memory.readCell_consCell_ne v _ h
    · split
      · next hnk => rw [Memory.readCell_consCell_ne v m h, Memory.readCell_cons_ne w m (hnk ▸ h.symm)]
      · simp only [Memory.readCell, ih]

/-- MemRead of the address MemWrite wrote (20_memory.md R31). -/
theorem State.readMem_writeMem_self {s : State} (p v : Byte) (hm : Memory.wf s.mem = true) :
    (s.writeMem p v).readMem p = v :=
  Memory.readCell_writeCell_self p.toNat v hm

/-- MemRead of any other address. -/
theorem State.readMem_writeMem_ne (s : State) {p q : Byte} (v : Byte) (h : q ≠ p) :
    (s.writeMem p v).readMem q = s.readMem q :=
  Memory.readCell_writeCell_ne v s.mem fun e => h (BitVec.eq_of_toNat_eq e)

/-- Settles O44: a write in its place of the canonical list is found by a read of its address, and no other read
looks at it. -/
theorem aReadGivesTheLastWrite : Obligations.AReadGivesTheLastWrite :=
  fun s p v hm => ⟨State.readMem_writeMem_self p v hm, fun _ hq => State.readMem_writeMem_ne s v hq⟩

/-- Settles O46: a store leaves pc, so the fetch succeeds and its latches are reads of the stored memory. -/
theorem theNextFetchSeesAStore : Obligations.TheNextFetchSeesAStore := by
  intro s v hm hpc
  have hfetch : ∀ a, (s.writeMem a v).fetch = .ok (s.writeMem a v).latch :=
    fun a => State.fetch_eq_ok_iff.2 ⟨hpc, rfl⟩
  have hread : ∀ a, (s.writeMem a v).readMem a = v := fun a => State.readMem_writeMem_self a v hm
  exact ⟨⟨_, hfetch _, hread _⟩, ⟨_, hfetch _, hread _⟩, ⟨_, hfetch _, hread _⟩⟩

/-! ## Who may change memory -/

/-- Where SP may be decremented, a push does it without a wrap (60_exceptions.md R93). -/
theorem State.pushed_sp {s : State} (hsp : 1 ≤ s.sp.toNat) : s.pushed.sp = s.sp - 1#8 := by
  rw [State.pushed, State.sp_setReg_sp]
  apply BitVec.eq_of_toNat_eq
  rw [narrow_toNat, BitVec.toNat_sub_of_le hsp]
  exact Nat.mod_eq_of_lt (by omega)

/-- Only PUSH's and CALL's handlers write memory, one byte at SP - 1 (20_memory.md R28, R34). -/
theorem Completes.mem_cases {s u : State} {i : Instr} (h : Completes s i u) :
    u.mem = s.mem ∨ i.mnemonic ∈ [.push, .call] ∧ ∃ v, u.mem = (s.writeMem (s.sp - 1#8) v).mem := by
  cases h with
  | push _ hsp => exact .inr ⟨.head _, _, by rw [State.pushed_sp hsp]; rfl⟩
  | call _ hsp => exact .inr ⟨.tail _ (.head _), _, by rw [State.pushed_sp hsp]; rfl⟩
  | jeq | jne => exact .inl (by split <;> rfl)
  | _ => exact .inl rfl

theorem opcode_of_mem_push_call {m : Mnemonic} (h : m ∈ [.push, .call]) :
    defaultOpcodeMap m = 0x45#8 ∨ defaultOpcodeMap m = 0x50#8 := by
  obtain rfl | rfl : m = .push ∨ m = .call := by simpa using h
  · exact .inl rfl
  · exact .inr rfl

/-- Settles O35: an anomaly leaves memory alone, and of the handlers only PUSH's and CALL's write it, at SP - 1. The
locality of a write needs no canonical form. -/
theorem onlyPushAndCallChangeMemory : Obligations.OnlyPushAndCallChangeMemory := by
  intro s t p _ h hne
  obtain ⟨-, hstep⟩ := stepTo_of_step h
  cases hstep with
  | fetchOutOfRange | illegalOpcode | failsCheck => exact absurd rfl hne
  | completes _ hi hu =>
    rw [State.readMem, finish_mem] at hne
    obtain hsame | ⟨hmn, v, hmem⟩ := hu.mem_cases
    · exact absurd (by rw [hsame]; rfl) hne
    · refine ⟨(opcode_of_decode hi).1 ▸ opcode_of_mem_push_call hmn, ?_⟩
      by_contra hp
      rw [hmem] at hne
      exact hne (State.readMem_writeMem_ne s v hp)

end Sys2Proof.Machine

/-! ## Decoding and encoding -/

namespace Sys2Proof

/-- No mnemonic is looked up exactly where no row has the byte (30_encoding.md R45). -/
theorem lookupOpcode_eq_none_iff {map : OpcodeMap} {ir : Byte} : lookupOpcode map ir = none ↔ ∀ m, map m ≠ ir := by
  simp [lookupOpcode, Mnemonic.mem_all]

/-- Where no two mnemonics share a byte, the look-up inverts the map. -/
theorem lookupOpcode_of_injective {map : OpcodeMap} (hmap : Function.Injective map) (m : Mnemonic) :
    lookupOpcode map (map m) = some m := by
  cases h : lookupOpcode map (map m) with
  | none => exact absurd rfl (lookupOpcode_eq_none_iff.1 h m)
  | some m' => rw [hmap (lookupOpcode_sound h)]

theorem decodeWith_of_injective {map : OpcodeMap} (hmap : Function.Injective map) (m : Mnemonic) (a b : Byte) :
    decodeWith map (map m) a b = .ok (Instr.build m a b) :=
  decodeWith_eq_ok_iff.2 ⟨m, lookupOpcode_of_injective hmap m, rfl⟩

/-- The operand bytes of an instruction with any two bytes after them begin with two bytes from which its mnemonic
builds it again: what its format uses is its own, and the rest is ignored (30_encoding.md R42, R48). -/
theorem Instr.exists_build_eq (i : Instr) (p q : Byte) (rest : List Byte) :
    ∃ a b tail, i.operandBytes ++ p :: q :: rest = a :: b :: tail ∧ Instr.build i.mnemonic a b = i := by
  cases i with
  | _ => exact ⟨_, _, _, rfl, rfl⟩

/-- The operand bytes of a built instruction are those its format uses (30_encoding.md R42). -/
theorem Instr.operandBytes_build (m : Mnemonic) (a b : Byte) :
    (Instr.build m a b).operandBytes = [a, b].take m.format.operandCount := by
  cases m with
  | _ => rfl

/-- An instruction is determined by its mnemonic and its operand bytes. -/
theorem Instr.eq_of_operandBytes {i j : Instr} (hm : i.mnemonic = j.mnemonic) (hops : i.operandBytes = j.operandBytes) :
    i = j := by
  obtain ⟨a, b, tail, happ, hi⟩ := i.exists_build_eq 0 0 []
  obtain ⟨a', b', tail', happ', hj⟩ := j.exists_build_eq 0 0 []
  rw [hops, happ'] at happ
  obtain ⟨rfl, hrest⟩ := List.cons.inj happ
  obtain ⟨rfl, -⟩ := List.cons.inj hrest
  rw [← hi, ← hj, hm]

/-- The default map is a value that R51 allows. -/
theorem defaultOpcodeMap_keepsFields : defaultOpcodeMap.keepsFields := by
  intro m
  cases m with
  | _ => exact ⟨rfl, rfl⟩

theorem Format.operandCount_le_two (f : Format) : f.operandCount ≤ 2 := by cases f <;> decide

/-- The count `n` of an opcode byte as a quotient (30_encoding.md R43). -/
theorem opCount_eq_div (op : Byte) : opCount op = op.toNat / 64 := by
  have hlt := op.isLt
  rw [opCount, BitVec.extractLsb'_toNat, Nat.shiftRight_eq_div_pow]
  omega

/-- S by name: the rows that set pc themselves (30_encoding.md R51). -/
theorem Mnemonic.setsPc_iff_mem (m : Mnemonic) : m.setsPc = true ↔ m ∈ [.call, .ret, .jmp, .jeq, .jne] := by
  cases m <;> decide

/-- The count of an opcode byte found in the default table is its row's. -/
theorem opCount_of_lookupOpcode {ir : Byte} {m : Mnemonic} (h : lookupOpcode defaultOpcodeMap ir = some m) :
    opCount ir = m.format.operandCount :=
  lookupOpcode_sound h ▸ (defaultOpcodeMap_keepsFields m).1

/-- What is decoded depends on the operand bytes that the count `n` of the opcode byte takes in, and on no others
(30_encoding.md R48). -/
theorem decode_congr {ir a b a' b' : Byte} (h : [a, b].take (opCount ir) = [a', b'].take (opCount ir)) :
    decode ir a b = decode ir a' b' := by
  unfold decode decodeWith
  cases hm : lookupOpcode defaultOpcodeMap ir with
  | none => rfl
  | some m =>
    rw [opCount_of_lookupOpcode hm, ← Instr.operandBytes_build, ← Instr.operandBytes_build] at h
    exact congrArg Except.ok (Instr.eq_of_operandBytes (by simp) h)

/-- What is accepted encodes to as many of the three bytes as the count takes in (30_encoding.md R42, R47). -/
theorem encode_of_decode {ir a b : Byte} {i : Instr} (h : decode ir a b = .ok i) :
    encode i = [ir, a, b].take (opLen ir) := by
  obtain ⟨m, hm, rfl⟩ := decodeWith_eq_ok_iff.1 h
  rw [opLen, opCount_of_lookupOpcode hm, List.take_succ_cons, ← Instr.operandBytes_build, encode, encodeWith,
    Instr.mnemonic_build, lookupOpcode_sound hm]

theorem opLen_le_three_of_decode {ir a b : Byte} {i : Instr} (h : decode ir a b = .ok i) : opLen ir ≤ 3 := by
  obtain ⟨m, hm, -⟩ := decodeWith_eq_ok_iff.1 h
  rw [opLen, opCount_of_lookupOpcode hm]
  exact Nat.succ_le_succ m.format.operandCount_le_two

end Sys2Proof

namespace Sys2Proof.Machine

/-- The table's bytes are the values of the default map (30_encoding.md R41). -/
theorem mem_tableOpcodes_iff {ir : Byte} : ir ∈ tableOpcodes ↔ ∃ m, defaultOpcodeMap m = ir := by
  have htable : tableOpcodes = Mnemonic.all.map defaultOpcodeMap := rfl
  simp [htable, Mnemonic.mem_all]

/-- Settles O1: the window begins with the opcode byte, which the map's inverse takes to the mnemonic, and two bytes
from which the mnemonic builds the instruction. -/
theorem decodeOfEncodeUnderAnyOpcodeMap : Obligations.DecodeOfEncodeUnderAnyOpcodeMap := by
  intro map hmap i p q rest
  obtain ⟨a, b, tail, hops, hbuild⟩ := i.exists_build_eq p q rest
  calc decodeBytesWith map (encodeWith map i ++ p :: q :: rest)
    _ = decodeBytesWith map (map i.mnemonic :: a :: b :: tail) := by rw [← hops, encodeWith, List.cons_append]
    _ = .ok (Instr.build i.mnemonic a b) := decodeWith_of_injective hmap i.mnemonic a b
    _ = .ok i := by rw [hbuild]

/-- Settles O2: under the default map the opcode byte's own count is the one the encoder goes by. -/
theorem decodedBytesAreTheEncoding : Obligations.DecodedBytesAreTheEncoding := by
  intro ir a b i h
  have henc := encode_of_decode h
  have hlen := opLen_le_three_of_decode h
  exact ⟨henc, henc ▸ List.length_take_of_le hlen, hlen⟩

/-- Settles O3: the decoder accepts a byte exactly where the default map takes that value. -/
theorem decoderAcceptsExactlyTheTable : Obligations.DecoderAcceptsExactlyTheTable := by
  refine ⟨fun ir a b hir => ?_, fun ir a b hir => ?_, by decide, rfl⟩
  · obtain ⟨m, hm⟩ := mem_tableOpcodes_iff.1 hir
    cases h : decode ir a b with
    | ok i => exact ⟨i, rfl, (opcode_of_decode h).1⟩
    | error e => exact absurd hm (lookupOpcode_eq_none_iff.1 (decodeWith_eq_error_iff.1 h).1 m)
  · have hnone : lookupOpcode defaultOpcodeMap ir = none :=
      lookupOpcode_eq_none_iff.2 fun m hm => hir (mem_tableOpcodes_iff.2 ⟨m, hm⟩)
    exact decodeWith_eq_error_iff.2 ⟨hnone, rfl⟩

/-- Settles O4: the counts are read off the sixteen rows, and S is the row's own. -/
theorem opcodeBitsGiveCountAndSetsPc : Obligations.OpcodeBitsGiveCountAndSetsPc := by
  refine ⟨by decide, fun m => ?_, defaultOpcodeMap_keepsFields⟩
  have hS : (defaultOpcodeMap m).getLsbD 4 = m.setsPc := (defaultOpcodeMap_keepsFields m).2
  rw [hS]
  exact m.setsPc_iff_mem

end Sys2Proof.Machine

/-! ## A step under any opcode map -/

namespace Sys2Proof.Machine

/-- Where the map's decoder reads an instruction, the step runs it on the latched state (40_cycle.md R53, R55). -/
theorem stepWith_eq_exec_of_decode {map : OpcodeMap} {s : State} {i : Instr} (hrun : s.run = .running)
    (hpc : s.pc.toNat ≤ 253)
    (hi : decodeWith map (s.readMem s.pc) (s.readMem (s.pc + 1#8)) (s.readMem (s.pc + 2#8)) = .ok i) :
    stepWith map s = exec i s.latch := by
  obtain ⟨t, ht⟩ := exec_answers_next i s.latch
  rw [ht]
  exact stepWith_eq_next_iff.2 ⟨hrun, .inr (.inr ⟨hpc, i, hi, ht⟩)⟩

/-- Settles O50: the step is `exec` of what is decoded, and raises IllegalOpcode where no row has the byte. -/
theorem aStepUnderAnyOpcodeMapRunsTheDecodedInstruction :
    Obligations.AStepUnderAnyOpcodeMapRunsTheDecodedInstruction := by
  intro map s hrun hpc
  refine ⟨fun i hi => stepWith_eq_exec_of_decode hrun hpc hi, fun hnone => ?_, rfl⟩
  exact stepWith_eq_next_iff.2 ⟨hrun, .inr (.inl ⟨hpc, lookupOpcode_eq_none_iff.2 hnone, rfl⟩)⟩

/-- The Advance phase moves pc by the row's length without a wrap, or leaves a stopped machine with pc kept
(40_cycle.md R57). -/
theorem State.advance_pc (u : State) (m : Mnemonic) :
    ((u.advance m).run = .running → (u.advance m).pc.toNat = u.pc.toNat + m.len) ∧
    ((u.advance m).run ≠ .running → (u.advance m).pc = u.pc) := by
  obtain ⟨hstop, e⟩ | ⟨hrun, hle, e⟩ | ⟨-, -, e⟩ := State.advance_cases u m
  · rw [e]
    exact ⟨fun hrun => absurd hrun hstop, fun _ => rfl⟩
  · rw [e]
    refine ⟨fun _ => ?_, fun hne => absurd hrun hne⟩
    rw [State.setPc_pc, narrow_toNat]
    exact Nat.mod_eq_of_lt (by omega)
  · rw [e]
    exact ⟨nofun, fun _ => rfl⟩

/-- An executed instruction with S = 0 moves pc by its row's length, or stops the machine with pc kept
(40_cycle.md R57, 60_exceptions.md R88). -/
theorem exec_pc_of_plain {i : Instr} {s t : State} (h : exec i s = .next t) (hS : i.mnemonic.setsPc = false) :
    (t.run = .running → t.pc.toNat = s.pc.toNat + i.mnemonic.len) ∧ (t.run ≠ .running → t.pc = s.pc) := by
  obtain ⟨c, -, rfl⟩ | ⟨u, hu, rfl⟩ := exec_eq_next_cases h
  · exact ⟨nofun, fun _ => rfl⟩
  · have hfin : finish i.mnemonic u = u.advance i.mnemonic := by simp [finish, hS]
    rw [hfin, ← hu.pc_eq hS]
    exact u.advance_pc i.mnemonic

/-- Under a map that keeps R51, a step whose opcode byte has S = 0 moves pc by the length that byte gives, or stops
the machine with pc kept. -/
theorem stepWith_pc_of_plain {map : OpcodeMap} {s t : State} (hmap : map.keepsFields) (h : stepWith map s = .next t)
    (hS : opSetsPc (s.readMem s.pc) = false) :
    (t.run = .running → t.pc.toNat = s.pc.toNat + opLen (s.readMem s.pc)) ∧ (t.run ≠ .running → t.pc = s.pc) := by
  obtain ⟨-, ⟨-, rfl⟩ | ⟨-, -, rfl⟩ | ⟨-, i, hi, hexec⟩⟩ := stepWith_eq_next_iff.1 h
  · exact ⟨nofun, fun _ => rfl⟩
  · exact ⟨nofun, fun _ => rfl⟩
  · obtain ⟨m, hm, rfl⟩ := decodeWith_eq_ok_iff.1 hi
    rw [← lookupOpcode_sound hm, Laws.Layout.opSetsPc_of_keepsFields hmap] at hS
    rw [← lookupOpcode_sound hm, Laws.Layout.opLen_of_keepsFields hmap]
    simpa using exec_pc_of_plain hexec (by simpa using hS)

/-- Settles O51: the row's length is the one in bits 7:6 of the byte. -/
theorem plainInstructionsAdvanceByTheirLengthUnderAnyOpcodeMap :
    Obligations.PlainInstructionsAdvanceByTheirLengthUnderAnyOpcodeMap := by
  intro map s t hmap _ h hS
  rw [← opCount_eq_div]
  exact stepWith_pc_of_plain hmap h hS

end Sys2Proof.Machine

/-! ## The operand latches -/

namespace Sys2Proof.Machine

/-- `s` with other bytes in the operand latches. -/
def State.withOperands (s : State) (x y : Byte) : State := { s with latchA := x, latchB := y }

section
variable {x y : Byte}

/-- An anomaly's record does not name the operand latches (60_exceptions.md R88). -/
theorem State.raise_withOperands (s : State) (c : Anomaly) :
    (s.withOperands x y).raise c = (s.raise c).withOperands x y := by
  cases c with
  | _ => rfl

theorem State.advance_withOperands (s : State) (m : Mnemonic) :
    (s.withOperands x y).advance m = (s.advance m).withOperands x y := by
  have hrun : (s.withOperands x y).run = s.run := rfl
  rw [State.advance, State.advance, hrun]
  cases s.run with
  | running =>
    dsimp only
    rw [apply_ite (State.withOperands · x y)]
    rfl
  | halted | faulted => rfl

/-- The end of an instruction does not read the operand latches. -/
theorem complete_withOperands {m : Mnemonic} {s t : State} {h : Except Anomaly State} (ht : complete m s h = .next t) :
    complete m (s.withOperands x y) (h.map (State.withOperands · x y)) = .next (t.withOperands x y) := by
  obtain ⟨c, rfl, rfl⟩ | ⟨u, rfl, hS, rfl⟩ | ⟨u, rfl, hS, rfl⟩ := complete_eq_next_iff.1 ht
  · exact congrArg Host.Outcome.next (s.raise_withOperands c)
  · simp [complete, hS, Except.map]
  · simp [complete, hS, Except.map, State.advance_withOperands]

/-- A check that does not read the operand latches, followed by the rest of a handler. -/
theorem bind_withOperands {α : Type} {e : Except Anomaly α} {f g : α → Except Anomaly State}
    (hrest : ∀ v, g v = (f v).map (State.withOperands · x y)) :
    (e >>= g) = (e >>= f).map (State.withOperands · x y) := by
  cases e with
  | error c => rfl
  | ok v => exact hrest v

/-- A first half that changes the working copy, followed by the rest of a handler. -/
theorem map_bind_withOperands {e e' : Except Anomaly State} {f g : State → Except Anomaly State}
    (he : e' = e.map (State.withOperands · x y))
    (hrest : ∀ u, g (u.withOperands x y) = (f u).map (State.withOperands · x y)) :
    (e' >>= g) = (e >>= f).map (State.withOperands · x y) := by
  subst he
  cases e with
  | error c => rfl
  | ok u => exact hrest u

theorem State.decSp_withOperands (s : State) :
    (s.withOperands x y).decSp = s.decSp.map (State.withOperands · x y) := by
  rw [State.decSp, State.decSp, apply_ite (Except.map _)]
  rfl

theorem State.incSp_withOperands (s : State) :
    (s.withOperands x y).incSp = s.incSp.map (State.withOperands · x y) := by
  rw [State.incSp, State.incSp, apply_ite (Except.map _)]
  rfl

/-- The enabled writes of the ALU do not read the operand latches. -/
theorem State.writeBack_withOperands (s : State) (r : RegIdx) (o : AluOut) :
    (s.withOperands x y).writeBack r o = (s.writeBack r o).withOperands x y := by
  obtain ⟨res, resWe, fl, flWe⟩ := o
  cases resWe with
  | true | false =>
    cases flWe with
    | true | false => rfl

theorem aluTwo_withOperands (m : Mnemonic) (a b : Byte) (s : State) :
    aluTwo m a b (s.withOperands x y) = (aluTwo m a b s).map (State.withOperands · x y) :=
  bind_withOperands fun _ => bind_withOperands fun _ => bind_withOperands fun _ =>
    congrArg Except.ok (State.writeBack_withOperands ..)

theorem aluOne_withOperands (m : Mnemonic) (a : Byte) (s : State) :
    aluOne m a (s.withOperands x y) = (aluOne m a s).map (State.withOperands · x y) :=
  bind_withOperands fun _ => bind_withOperands fun _ => congrArg Except.ok (State.writeBack_withOperands ..)

/-- Every handler answers the same, but for the operand latches, when those hold other bytes. -/
theorem exec_eq_complete_withOperands (i : Instr) (s : State) (x y : Byte) :
    ∃ h h', exec i s = complete i.mnemonic s h ∧
      exec i (s.withOperands x y) = complete i.mnemonic (s.withOperands x y) h' ∧
      h' = h.map (State.withOperands · x y) := by
  cases i with
  | hlt => exact ⟨.ok (s.setRun .halted), .ok ((s.withOperands x y).setRun .halted), rfl, rfl, rfl⟩
  | ldi a b => exact ⟨_, _, rfl, rfl, bind_withOperands fun _ => rfl⟩
  | prn a => exact ⟨_, _, rfl, rfl, bind_withOperands fun _ => rfl⟩
  | push a =>
    exact ⟨_, _, rfl, rfl, bind_withOperands fun _ => map_bind_withOperands s.decSp_withOperands fun _ =>
      bind_withOperands fun _ => rfl⟩
  | pop a => exact ⟨_, _, rfl, rfl, bind_withOperands fun r => (s.setReg r (s.readMem s.sp)).incSp_withOperands⟩
  | call a =>
    exact ⟨_, _, rfl, rfl, bind_withOperands fun _ =>
      map_bind_withOperands (map_bind_withOperands s.decSp_withOperands fun _ => rfl) fun _ =>
        bind_withOperands fun _ => rfl⟩
  | ret =>
    refine ⟨_, _, rfl, rfl, ?_⟩
    rw [State.stackPop, State.stackPop, bind_assoc, bind_assoc]
    exact map_bind_withOperands s.incSp_withOperands fun _ => rfl
  | add | sub | mul | cmp => exact ⟨_, _, rfl, rfl, aluTwo_withOperands ..⟩
  | inc | dec => exact ⟨_, _, rfl, rfl, aluOne_withOperands ..⟩
  | jmp a => exact ⟨_, _, rfl, rfl, bind_withOperands fun _ => rfl⟩
  | jeq a | jne a =>
    refine ⟨_, _, rfl, rfl, bind_withOperands fun t => bind_withOperands fun f => ?_⟩
    cases flagBitE f with
    | true | false => rfl

theorem exec_withOperands {i : Instr} {s t : State} (h : exec i s = .next t) (x y : Byte) :
    exec i (s.withOperands x y) = .next (t.withOperands x y) := by
  obtain ⟨out, _, hs, hx, rfl⟩ := exec_eq_complete_withOperands i s x y
  rw [hx]
  exact complete_withOperands (hs ▸ h)

end

/-- Settles O5: the decoder looks at the bytes the count takes in, and no handler reads the operand latches. -/
theorem ignoredOperandBytesHaveNoEffect : Obligations.IgnoredOperandBytesHaveNoEffect := by
  refine ⟨fun ir a b a' b' => ⟨fun hn => decode_congr ?_, fun hn => decode_congr ?_⟩,
    fun i s t x y h => exec_withOperands h x y⟩
  · rw [hn]
    rfl
  · rw [hn]
    rfl

end Sys2Proof.Machine

/-! ## The cycle under the default opcode map -/

namespace Sys2Proof.Machine

/-- Under any opcode map a Running machine has a next state: the fetch fails, no row has the byte, or the instruction
runs, and each of these answers one (40_cycle.md R52, R60). -/
theorem stepWith_answers_next (map : OpcodeMap) {s : State} (hrun : s.run = .running) :
    ∃ t, stepWith map s = .next t := by
  by_cases hpc : s.pc.toNat ≤ 253
  · cases hop : lookupOpcode map (s.readMem s.pc) with
    | none => exact ⟨_, stepWith_eq_next_iff.2 ⟨hrun, .inr (.inl ⟨hpc, hop, rfl⟩)⟩⟩
    | some m =>
      rw [stepWith_eq_exec_of_decode hrun hpc (decodeWith_eq_ok_iff.2 ⟨m, hop, rfl⟩)]
      exact exec_answers_next _ _
  · exact ⟨_, stepWith_eq_next_iff.2 ⟨hrun, .inl ⟨Nat.lt_of_not_le hpc, rfl⟩⟩⟩

/-- Settles O13: the default map keeps R51, so the byte's own bits give the length. -/
theorem plainInstructionsAdvanceByTheirLength : Obligations.PlainInstructionsAdvanceByTheirLength :=
  fun _ _ _ h hS => stepWith_pc_of_plain defaultOpcodeMap_keepsFields h hS

/-- Settles O7: the case of the default map. -/
theorem aStepRunsTheDecodedInstruction : Obligations.AStepRunsTheDecodedInstruction :=
  fun _ _ hrun hpc hi => stepWith_eq_exec_of_decode hrun hpc hi

/-- Settles O10: whatever step answers a next state started from a Running one. -/
theorem aStoppedMachineHasNoStep : Obligations.AStoppedMachineHasNoStep :=
  fun _ hstop _ h => hstop (step_eq_next_iff.1 h).1

/-- Settles O11: the case of the default map. -/
theorem aRunningMachineAlwaysSteps : Obligations.ARunningMachineAlwaysSteps :=
  fun _ hrun => stepWith_answers_next defaultOpcodeMap hrun

end Sys2Proof.Machine

/-! ## An instruction forwards

`Completes.exec_eq` is the converse of `exec_eq_next_cases`: a working copy that `Completes` lists is committed and
advanced. The lemmas `stopsBy_…` say which check answers first. -/

namespace Sys2Proof.Machine

/-! ### The checks of a handler, passed and failed -/

section
variable {α : Type} {s : State} {a : Byte} {r : RegIdx}

theorem idx_bind_eq_ok (hr : r.val = a.toNat) (f : RegIdx → Except Anomaly α) : idx a >>= f = f r := by
  rw [idx_eq_ok_iff.2 hr]; rfl

theorem idx_bind_eq_error (h : 7 < a.toNat) (f : RegIdx → Except Anomaly α) :
    idx a >>= f = .error (.badRegister a) := by
  rw [idx_eq_error_iff.2 ⟨h, rfl⟩]; rfl

theorem State.readReg_bind_eq_ok (hw : s.written.regWritten r = true) (f : Byte → Except Anomaly α) :
    s.readReg r >>= f = f (s.getReg r) := by
  rw [State.readReg_eq_ok_iff.2 ⟨hw, rfl⟩]; rfl

theorem State.readReg_bind_eq_error (hw : s.written.regWritten r = false) (f : Byte → Except Anomaly α) :
    s.readReg r >>= f = .error (.unwrittenRead (.reg r)) := by
  rw [State.readReg_eq_error_iff.2 ⟨hw, rfl⟩]; rfl

theorem State.Reads.rd_bind_eq (h : s.Reads a r) (f : Byte → Except Anomaly α) : s.rd a >>= f = f (s.getReg r) := by
  rw [State.rd_eq_ok_iff.2 ⟨r, h.1, h.2, rfl⟩]; rfl

theorem State.rd_bind_eq_badRegister (h : 7 < a.toNat) (f : Byte → Except Anomaly α) :
    s.rd a >>= f = .error (.badRegister a) := by
  rw [State.rd_eq_error_iff.2 (.inl ⟨h, rfl⟩)]; rfl

theorem State.rd_bind_eq_unwrittenRead (hr : r.val = a.toNat) (hw : s.written.regWritten r = false)
    (f : Byte → Except Anomaly α) : s.rd a >>= f = .error (.unwrittenRead (.reg r)) := by
  rw [State.rd_eq_error_iff.2 (.inr ⟨r, hr, hw, rfl⟩)]; rfl

theorem idx_readReg_bind_eq_unwrittenRead (hr : r.val = a.toNat) (hw : s.written.regWritten r = false)
    (f : RegIdx → Byte → Except Anomaly α) :
    (idx a >>= fun r => s.readReg r >>= f r) = .error (.unwrittenRead (.reg r)) :=
  (idx_bind_eq_ok hr _).trans (State.readReg_bind_eq_error hw _)

theorem State.rdFL_bind_eq_ok (hf : s.written.flWritten = true) (f : Byte → Except Anomaly α) :
    s.rdFL >>= f = f s.fl := by
  rw [State.rdFL_eq_ok_iff.2 ⟨hf, rfl⟩]; rfl

theorem State.decSp_bind_eq_ok (hsp : 1 ≤ s.sp.toNat) (f : State → Except Anomaly α) : s.decSp >>= f = f s.pushed := by
  rw [State.decSp_eq_ok_iff.2 ⟨hsp, rfl⟩]; rfl

theorem State.decSp_bind_eq_error (hsp : s.sp = 0#8) (f : State → Except Anomaly α) :
    s.decSp >>= f = .error (.stackOutOfRange (-1)) := by
  rw [State.decSp_eq_error_iff.2 ⟨hsp, rfl⟩]; rfl

end

/-- The handler with two register sources, both checks passed. -/
theorem aluTwo_eq_ok {s : State} {a b : Byte} {p q : RegIdx} (m : Mnemonic) (hp : s.Reads a p) (hq : s.Reads b q) :
    aluTwo m a b s = .ok (s.writeBack p (aluDispatch m (s.getReg p) (s.getReg q))) :=
  (idx_bind_eq_ok hp.1 _).trans ((State.readReg_bind_eq_ok hp.2 _).trans (hq.rd_bind_eq _))

/-- The handler with one register source, its check passed. -/
theorem aluOne_eq_ok {s : State} {a : Byte} {p : RegIdx} (m : Mnemonic) (hp : s.Reads a p) :
    aluOne m a s = .ok (s.writeBack p (aluDispatch m (s.getReg p) 0x00#8)) :=
  (idx_bind_eq_ok hp.1 _).trans (State.readReg_bind_eq_ok hp.2 _)

/-- A push leaves what a register operand names and whether it has been written. -/
theorem State.pushed_reads {s : State} {a : Byte} {r : RegIdx} (h : s.Reads a r) : s.pushed.Reads a r :=
  ⟨h.1, (WrittenBits.regWritten_markReg_sp ..).trans h.2⟩

/-- An instruction whose checks pass commits its working copy and ends (00_scope.md R9, 40_cycle.md R56 to R58). -/
theorem Completes.exec_eq {s u : State} {i : Instr} (h : Completes s i u) :
    exec i s = .next (finish i.mnemonic u) := by
  cases h with
  | hlt => rfl
  | ldi hr => simp only [exec, execLdi, idx_bind_eq_ok hr]; rfl
  | prn hr => simp only [exec, execPrn, hr.rd_bind_eq]; rfl
  | push hr hsp =>
    simp only [exec, execPush, idx_bind_eq_ok hr.1, State.decSp_bind_eq_ok hsp,
      State.readReg_bind_eq_ok (State.pushed_reads hr).2]
    rfl
  | pop hr hsp => simp only [exec, execPop, idx_bind_eq_ok hr, State.incSp_eq_ok_iff.2 ⟨hsp, rfl⟩]; rfl
  | call hr hsp =>
    simp only [exec, execCall, State.stackPush, idx_bind_eq_ok hr.1, State.decSp_bind_eq_ok hsp, pure_bind,
      State.readReg_bind_eq_ok (s := s.pushed.writeMem _ _) (State.pushed_reads hr).2]
    rfl
  | ret hsp => simp only [exec, execRet, State.stackPop_eq_ok_iff.2 ⟨rfl, State.incSp_eq_ok_iff.2 ⟨hsp, rfl⟩⟩]; rfl
  | add hp hq => simp only [exec, execAdd, aluTwo_eq_ok _ hp hq]; rfl
  | sub hp hq => simp only [exec, execSub, aluTwo_eq_ok _ hp hq]; rfl
  | mul hp hq => simp only [exec, execMul, aluTwo_eq_ok _ hp hq]; rfl
  | inc hp => simp only [exec, execInc, aluOne_eq_ok _ hp]; rfl
  | dec hp => simp only [exec, execDec, aluOne_eq_ok _ hp]; rfl
  | cmp hp hq => simp only [exec, execCmp, aluTwo_eq_ok _ hp hq]; rfl
  | jmp hr => simp only [exec, execJmp, hr.rd_bind_eq]; rfl
  | jeq hr hf => simp only [exec, execJeq, hr.rd_bind_eq, State.rdFL_bind_eq_ok hf]; rfl
  | jne hr hf => simp only [exec, execJne, hr.rd_bind_eq, State.rdFL_bind_eq_ok hf]; rfl

/-! ### The first check that fails -/

section
variable {s : State} {i : Instr} {a : Byte} {r : RegIdx}

/-- The operand A is checked before anything else (60_exceptions.md R97). -/
theorem stopsBy_badRegister {l : List Byte} (hi : i.regOperands = a :: l) (h : 7 < a.toNat) :
    StopsBy i s (.badRegister a) := by
  cases i with
  | hlt | ret => exact nomatch hi
  | prn | jmp | jeq | jne =>
    cases hi
    exact congrArg (complete _ s) (State.rd_bind_eq_badRegister h _)
  | _ =>
    cases hi
    exact congrArg (complete _ s) (idx_bind_eq_error h _)

/-- A register that is read before anything but the check of its operand raises UnwrittenRead (60_exceptions.md R92);
PUSH and CALL move SP first. -/
theorem stopsBy_unwrittenRead {l : List Byte} (hi : i.srcOperands = a :: l) (hpush : i.mnemonic ≠ .push)
    (hcall : i.mnemonic ≠ .call)
    (hr : r.val = a.toNat) (hw : s.written.regWritten r = false) : StopsBy i s (.unwrittenRead (.reg r)) := by
  cases i with
  | hlt | ret | ldi | pop => exact nomatch hi
  | push => exact absurd rfl hpush
  | call => exact absurd rfl hcall
  | prn | jmp | jeq | jne =>
    cases hi
    exact congrArg (complete _ s) (State.rd_bind_eq_unwrittenRead hr hw _)
  | _ =>
    cases hi
    exact congrArg (complete _ s) (idx_readReg_bind_eq_unwrittenRead hr hw _)

/-- The checks of `rd` on the operand A, where the instruction reads it first (00_scope.md R8). -/
theorem afterRead_of_srcOperands {l : List Byte} {use : RegIdx → Prop} (hi : i.srcOperands = a :: l)
    (hpush : i.mnemonic ≠ .push)
    (hcall : i.mnemonic ≠ .call) (huse : ∀ r, s.Reads a r → use r) : AfterRead i s a use := by
  have hreg : i.regOperands = a :: l := by
    cases i with
    | hlt | ret | ldi | pop => exact nomatch hi
    | _ => exact hi
  exact ⟨stopsBy_badRegister hreg, fun r hr => ⟨stopsBy_unwrittenRead hi hpush hcall hr, fun hw => huse r ⟨hr, hw⟩⟩⟩

/-- PUSH checks SP before it reads the register (41_data_movement.md R70, 60_exceptions.md R97). -/
theorem stopsBy_push_spBelowZero (hr : r.val = a.toNat) (hsp : s.sp = 0x00#8) :
    StopsBy (.push a) s (.stackOutOfRange (-1)) := by
  simp only [StopsBy, exec, execPush, idx_bind_eq_ok hr, State.decSp_bind_eq_error hsp]
  rfl

/-- The decremented SP of a PUSH that finds its register unwritten is discarded (00_scope.md R9). -/
theorem stopsBy_push_unwrittenRead (hr : r.val = a.toNat) (hsp : 1 ≤ s.sp.toNat)
    (hw : s.written.regWritten r = false) : StopsBy (.push a) s (.unwrittenRead (.reg r)) := by
  have hw' : s.pushed.written.regWritten r = false := (WrittenBits.regWritten_markReg_sp ..).trans hw
  simp only [StopsBy, exec, execPush, idx_bind_eq_ok hr, State.decSp_bind_eq_ok hsp,
    State.readReg_bind_eq_error hw']
  rfl

/-- POP checks the SP that the write of its register leaves (41_data_movement.md R71). -/
theorem stopsBy_pop_spPastTop (hr : r.val = a.toNat) (hsp : (s.setReg r (s.readMem s.sp)).sp = 0xFF#8) :
    StopsBy (.pop a) s (.stackOutOfRange 256) := by
  simp only [StopsBy, exec, execPop, idx_bind_eq_ok hr, State.incSp_eq_error_iff.2 ⟨hsp, rfl⟩]
  rfl

end

/-! ### What the end of an instruction leaves of its working copy -/

@[simp] theorem finish_getReg (m : Mnemonic) (u : State) (q : RegIdx) : (finish m u).getReg q = u.getReg q := by
  unfold finish; split <;> simp

@[simp] theorem finish_sp (m : Mnemonic) (u : State) : (finish m u).sp = u.sp := finish_getReg m u 7

@[simp] theorem finish_readMem (m : Mnemonic) (u : State) (p : Byte) : (finish m u).readMem p = u.readMem p := by
  simp [State.readMem]

theorem finish_latches (m : Mnemonic) (u : State) :
    (finish m u).latchIR = u.latchIR ∧ (finish m u).latchA = u.latchA ∧ (finish m u).latchB = u.latchB := by
  unfold finish; split <;> simp

section
variable {s u : State} {i : Instr}

theorem Completes.flagsSame_finish (h : Completes s i u) (hi : i.mnemonic ≠ .cmp) :
    FlagsSame s (finish i.mnemonic u) := by
  simpa [FlagsSame] using h.flagsSame hi

theorem Completes.outSame_finish (h : Completes s i u) (hi : i.mnemonic ≠ .prn) :
    OutSame s (finish i.mnemonic u) := by
  obtain hout | ⟨a, r, rfl, -⟩ := h.out_cases
  · simpa [OutSame] using hout
  · exact absurd rfl hi

/-- The Advance phase of a completed instruction with S = 0 (40_cycle.md R57, 60_exceptions.md R95). -/
theorem Completes.advancedOrPastEnd (h : Completes s i u) (hrun : s.run = .running)
    (hS : i.mnemonic.setsPc = false) (hi : i ≠ .hlt) :
    AdvancedOrPastEnd i.mnemonic.len s (finish i.mnemonic u) := by
  have hurun : u.run = .running := by
    obtain ⟨rfl, -⟩ | ⟨-, e⟩ := h.run_cases
    · exact absurd rfl hi
    · exact e.trans hrun
  have hpc : u.pcAfter i.mnemonic = s.pc.toNat + i.mnemonic.len := by rw [State.pcAfter_eq, h.pc_eq hS]
  have hfin : finish i.mnemonic u = u.advance i.mnemonic := by simp [finish, hS]
  rw [hfin]
  obtain ⟨hstop, -⟩ | ⟨-, hle, e⟩ | ⟨-, hlt, e⟩ := u.advance_cases i.mnemonic
  · exact absurd hurun hstop
  · rw [hpc] at hle e
    refine ⟨fun _ => ?_, fun hgt => absurd hle (Nat.not_le_of_lt hgt)⟩
    rw [e]
    exact ⟨hurun, (narrow_toNat _).trans (Nat.mod_eq_of_lt (Nat.lt_succ_of_le hle))⟩
  · rw [hpc] at hlt e
    refine ⟨fun hle => absurd hle (Nat.not_le_of_lt hlt), fun _ => ?_⟩
    rw [e, State.raise_run, State.raise_pc, h.pc_eq hS]
    exact ⟨congrArg (fun op => RunState.faulted ⟨_, _, op⟩) h.latchIR_eq, rfl⟩

/-- An instruction of two bytes with S = 0 advances from every pc it can be fetched at (40_cycle.md R53). -/
theorem Completes.advancedBy_two (h : Completes s i u) (hrun : s.run = .running) (hpc : s.pc.toNat ≤ 253)
    (hS : i.mnemonic.setsPc = false) (hlen : i.mnemonic.len = 2) : AdvancedBy 2 s (finish i.mnemonic u) := by
  have hi : i ≠ .hlt := by rintro rfl; exact nomatch hlen
  exact hlen ▸ (h.advancedOrPastEnd hrun hS hi).1 (by omega)

end

/-! ### Frames -/

section
variable {s t u : State} {dest dest' : List RegIdx} {cells cells' : List Byte}

theorem Frame.setReg (s : State) (r : RegIdx) (v : Byte) : Frame [r] [] s (s.setReg r v) where
  regs q hq := by
    have hne : q ≠ r := by simpa using hq
    exact ⟨State.getReg_setReg_ne s v hne, by simp [WrittenBits.regWritten_markReg, hne]⟩
  mem _ _ := rfl
  latches := ⟨rfl, rfl, rfl⟩
  mode := State.setReg_resetMode s r v

theorem Frame.writeMem (s : State) (p v : Byte) : Frame [] [p] s (s.writeMem p v) where
  regs _ _ := ⟨rfl, rfl⟩
  mem q hq := State.readMem_writeMem_ne s v (by simpa using hq)
  latches := ⟨rfl, rfl, rfl⟩
  mode := rfl

theorem Frame.emit (s : State) (v : Byte) : Frame [] [] s (s.emit v) where
  regs _ _ := ⟨rfl, rfl⟩
  mem _ _ := rfl
  latches := ⟨rfl, rfl, rfl⟩
  mode := rfl

/-- The end of an instruction touches nothing a frame speaks of. -/
theorem Frame.finish (h : Frame dest cells s u) (m : Mnemonic) : Frame dest cells s (finish m u) where
  regs q hq := by simpa using h.regs q hq
  mem p hp := by simpa using h.mem p hp
  latches := by
    obtain ⟨hIR, hA, hB⟩ := finish_latches m u
    rw [hIR, hA, hB]
    exact h.latches
  mode := (finish_resetMode m u).trans h.mode

/-- One change after another. -/
theorem Frame.trans (h : Frame dest cells s t) (h' : Frame dest' cells' t u) :
    Frame (dest ++ dest') (cells ++ cells') s u where
  regs q hq := by
    obtain ⟨hq1, hq2⟩ : q ∉ dest ∧ q ∉ dest' := by simpa using hq
    obtain ⟨hv, hw⟩ := h.regs q hq1
    obtain ⟨hv', hw'⟩ := h'.regs q hq2
    exact ⟨hv'.trans hv, hw'.trans hw⟩
  mem p hp := by
    obtain ⟨hp1, hp2⟩ : p ∉ cells ∧ p ∉ cells' := by simpa using hp
    exact (h'.mem p hp2).trans (h.mem p hp1)
  latches := by
    obtain ⟨hIR, hA, hB⟩ := h'.latches
    rw [hIR, hA, hB]
    exact h.latches
  mode := h'.mode.trans h.mode

/-- A longer list of registers frames less. -/
theorem Frame.mono (h : Frame dest cells s t) (hd : dest ⊆ dest') : Frame dest' cells s t :=
  { h with regs := fun q hq => h.regs q fun hm => hq (hd hm) }

/-- SP need not be listed where it is as before; its written bit never changes. -/
theorem Frame.of_sp_eq (h : Frame (7 :: dest) cells s t) (hsp : t.sp = s.sp) : Frame dest cells s t :=
  { h with
    regs := fun q hq => by
      by_cases hq7 : q = 7
      · subst hq7
        exact ⟨hsp, by simp⟩
      · exact h.regs q (by simp [hq7, hq]) }

theorem AdvancedBy.trans {m n : Nat} (h : AdvancedBy m s t) (h' : AdvancedBy n t u) : AdvancedBy (m + n) s u :=
  ⟨h'.1, by rw [h'.2, h.2, Nat.add_assoc]⟩

end

end Sys2Proof.Machine

/-! ## Data movement -/

namespace Sys2Proof.Machine

/-- Settles O14: the handler checks only A, and the load stands also where the advance passes 255. -/
theorem ldiLoadsItsLiteral : Obligations.LdiLoadsItsLiteral := by
  intro a b s
  refine ⟨rfl, fun hrun _ => ⟨stopsBy_badRegister rfl, fun r hr => ?_⟩⟩
  have hu : Completes s (.ldi a b) (s.setReg r b) := .ldi hr
  refine ⟨_, hu.exec_eq, ?_, ?_, (Frame.setReg s r b).finish _, hu.flagsSame_finish nofun, hu.outSame_finish nofun,
    hu.advancedOrPastEnd hrun rfl nofun⟩
  · simp
  · simp [WrittenBits.regWritten_markReg]

/-- Settles O15: what passes the checks of `rd` is emitted, and an emission touches the output alone. -/
theorem prnEmitsTheRegister : Obligations.PrnEmitsTheRegister := by
  intro a s
  refine ⟨rfl, fun hrun hpc => afterRead_of_srcOperands rfl nofun nofun fun r hr => ?_⟩
  have hu : Completes s (.prn a) (s.emit (s.getReg r)) := .prn hr
  refine ⟨_, hu.exec_eq, ?_, (Frame.emit s _).finish _, hu.flagsSame_finish nofun, hu.advancedBy_two hrun hpc rfl rfl⟩
  simp

/-! ### PUSH and POP -/

section
variable {s : State} {r : RegIdx}

/-- The working copy of a completed PUSH of register `r` changes SP and the byte at SP - 1. -/
theorem Frame.push (hsp : 1 ≤ s.sp.toNat) (v : Byte) :
    Frame [7] [s.sp - 1#8] s (s.pushed.writeMem s.pushed.sp v) := by
  rw [State.pushed_sp hsp]
  exact (Frame.setReg s 7 _).trans (Frame.writeMem s.pushed _ v)

/-- The working copy of a completed POP into register `r` changes `r` and SP. -/
theorem Frame.pop (s : State) (r : RegIdx) (v : Byte) : Frame [r, 7] [] s (s.setReg r v).popped :=
  (Frame.setReg s r v).trans (Frame.setReg _ 7 _)

theorem State.pushed_getReg_ne (s : State) (hr : r ≠ 7) : s.pushed.getReg r = s.getReg r :=
  State.getReg_setReg_ne s _ hr

theorem State.popped_getReg_ne (s : State) (hr : r ≠ 7) : s.popped.getReg r = s.getReg r :=
  State.getReg_setReg_ne s _ hr

theorem State.pushed_sp_toNat (hsp : 1 ≤ s.sp.toNat) : s.pushed.sp.toNat = s.sp.toNat - 1 := by
  rw [State.pushed_sp hsp, BitVec.toNat_sub_of_le hsp]
  rfl

/-- The byte a push stores is read back at the SP it started from, less one (40_cycle.md R65). -/
theorem State.push_readMem (hsp : 1 ≤ s.sp.toNat) (hmem : Memory.wf s.mem = true) (v : Byte) :
    (s.pushed.writeMem s.pushed.sp v).readMem (s.sp - 1#8) = v := by
  rw [State.pushed_sp hsp]
  exact State.readMem_writeMem_self (s := s.pushed) _ v hmem

/-- Where SP may be incremented, a pop does it without a wrap (60_exceptions.md R94). -/
theorem State.popped_sp_toNat (hsp : s.sp.toNat < 255) : s.popped.sp.toNat = s.sp.toNat + 1 := by
  rw [State.popped, State.sp_setReg_sp, narrow_toNat]
  exact Nat.mod_eq_of_lt (by omega)

end

/-- Settles O16: the register is read on the working copy with SP decremented, so PUSH R7 stores that SP. The stored
byte is read back because memory is canonical. -/
theorem pushStoresBelowTheStackPointer : Obligations.PushStoresBelowTheStackPointer := by
  intro a s
  refine ⟨rfl, fun hrun hpc hmem => ⟨stopsBy_badRegister rfl, fun r hr =>
    ⟨stopsBy_push_spBelowZero hr, fun hsp => ⟨stopsBy_push_unwrittenRead hr hsp, fun hw => ?_⟩⟩⟩⟩
  have hu : Completes s (.push a) (s.pushed.writeMem s.pushed.sp (s.pushed.getReg r)) := .push ⟨hr, hw⟩ hsp
  refine ⟨_, hu.exec_eq, ?_, fun h7 => ?_, fun h7 => ?_, (Frame.push hsp _).finish _, hu.flagsSame_finish nofun,
    hu.outSame_finish nofun, hu.advancedBy_two hrun hpc rfl rfl⟩
  · simpa using State.pushed_sp_toNat hsp
  · rw [finish_readMem, State.push_readMem hsp hmem, State.pushed_getReg_ne s h7]
  · rw [finish_readMem, State.push_readMem hsp hmem, h7]
    exact State.pushed_sp hsp

/-- A POP that completes: SP is one more than the `p` that the write of the register leaves there
(41_data_movement.md R71). -/
theorem exec_pop_of_sp_lt {a p : Byte} {r : RegIdx} {s : State} (hrun : s.run = .running) (hpc : s.pc.toNat ≤ 253)
    (hr : r.val = a.toNat) (hsp : (s.setReg r (s.readMem s.sp)).sp = p) (hp : p.toNat < 255) :
    ∃ t, exec (.pop a) s = .next t ∧ (r ≠ 7 → t.getReg r = s.readMem s.sp) ∧
      t.sp.toNat = p.toNat + 1 ∧ t.written.regWritten r = true ∧
      Frame [r, 7] [] s t ∧ FlagsSame s t ∧ OutSame s t ∧ AdvancedBy 2 s t := by
  subst hsp
  have hu : Completes s (.pop a) (s.setReg r (s.readMem s.sp)).popped := .pop hr hp
  refine ⟨_, hu.exec_eq, fun h7 => ?_, ?_, ?_, (Frame.pop s r _).finish _, hu.flagsSame_finish nofun,
    hu.outSame_finish nofun, hu.advancedBy_two hrun hpc rfl rfl⟩
  · rw [finish_getReg, State.popped_getReg_ne _ h7, State.getReg_setReg_self]
  · rw [finish_sp, State.popped_sp_toNat hp]
  · simp [State.popped, WrittenBits.regWritten_markReg]

/-- Settles O17: SP is checked and incremented on the working copy with the register written, where it is the popped
byte for R7 and the old SP for any other register. -/
theorem popLoadsFromTheStackPointer : Obligations.PopLoadsFromTheStackPointer := by
  intro a s
  refine ⟨rfl, fun hrun hpc => ⟨stopsBy_badRegister rfl, fun r hr => ⟨fun h7 => ?_, ?_⟩⟩⟩
  · have hkeep : (s.setReg r (s.readMem s.sp)).sp = s.sp := State.sp_setReg_ne s _ h7
    refine ⟨fun htop => stopsBy_pop_spPastTop hr (hkeep.trans htop), fun hsp => ?_⟩
    obtain ⟨t, ht, hload, htsp, hrest⟩ := exec_pop_of_sp_lt hrun hpc hr hkeep hsp
    exact ⟨t, ht, hload h7, htsp, hrest⟩
  · rintro rfl
    have hload : (s.setReg 7 (s.readMem s.sp)).sp = s.readMem s.sp := State.sp_setReg_sp s _
    refine ⟨fun htop => stopsBy_pop_spPastTop hr (hload.trans htop), fun hsp => ?_⟩
    obtain ⟨t, ht, -, htsp, -, hframe, hrest⟩ := exec_pop_of_sp_lt hrun hpc hr hload hsp
    exact ⟨t, ht, htsp, hframe.mono (by simp), hrest⟩

/-- Settles O30 from O16 and O17: the POP reads the byte that the PUSH stored, and its increment undoes the decrement,
so the frames of the two compose to one that does not list SP. -/
theorem pushThenPopMovesTheValue : Obligations.PushThenPopMovesTheValue := by
  intro a b ra rb s ha hb ha7 hb7 hab hrun hpc hmem hsp hw
  obtain ⟨-, hpush⟩ := pushStoresBelowTheStackPointer a s
  obtain ⟨-, hpushed⟩ := ((hpush hrun (by omega) hmem).2 ra ha).2 hsp
  obtain ⟨t, ht, htsp, hcell, -, hframe, -, -, hadv⟩ := hpushed hw
  have htop : t.sp.toNat < 255 := by omega
  have hpct : t.pc.toNat ≤ 253 := by rw [hadv.2]; omega
  obtain ⟨-, hpop⟩ := popLoadsFromTheStackPointer b t
  obtain ⟨u, hu, hload, husp, -, hframe', -, -, hadv'⟩ := (((hpop hadv.1 hpct).2 rb hb).1 hb7).2 htop
  have hsame : t.sp = s.sp - 1#8 := BitVec.eq_of_toNat_eq (by rw [htsp, BitVec.toNat_sub_of_le hsp]; rfl)
  have hback : u.sp = s.sp := BitVec.eq_of_toNat_eq (by omega)
  have hboth : Frame [rb] [s.sp - 1#8] s u := ((hframe.trans hframe').mono (by simp)).of_sp_eq hback
  refine ⟨t, u, ht, hu, ?_, (hboth.regs ra (by simpa using hab)).1, hback, hboth, hadv.trans hadv'⟩
  calc
    u.getReg rb = t.readMem t.sp := hload
    _ = s.getReg ra := by rw [hsame, hcell ha7]

end Sys2Proof.Machine

/-! ## Arithmetic

An instruction served by the ALU is what its mnemonic builds; its format says which registers it reads, and
`aluDispatch` what it writes. -/

namespace Sys2Proof

/-- The bytes of a built instruction: its row's opcode and the operands its format uses (30_encoding.md R42). -/
theorem encode_build (m : Mnemonic) (a b : Byte) :
    encode (Instr.build m a b) = defaultOpcodeMap m :: [a, b].take m.format.operandCount := by
  rw [encode, encodeWith, Instr.mnemonic_build, Instr.operandBytes_build]

/-- Two register sources: every such row is served by the ALU (30_encoding.md R41, 40_cycle.md R63). -/
theorem Mnemonic.isAlu_of_f2rr {m : Mnemonic} (hm : m.format = .f2rr) : m.isAlu = true := by
  cases m with
  | add | sub | mul | cmp => rfl
  | _ => exact nomatch hm

theorem Mnemonic.setsPc_of_isAlu {m : Mnemonic} (halu : m.isAlu = true) : m.setsPc = false := by
  cases m with
  | add | sub | mul | inc | dec | cmp => rfl
  | _ => exact nomatch halu

theorem Instr.srcOperands_build_of_f2rr {m : Mnemonic} (hm : m.format = .f2rr) (a b : Byte) :
    (Instr.build m a b).srcOperands = [a, b] := by
  cases m with
  | add | sub | mul | cmp => rfl
  | _ => exact nomatch hm

theorem Instr.srcOperands_build_of_f1r {m : Mnemonic} (hm : m.format = .f1r) (halu : m.isAlu = true) (a b : Byte) :
    (Instr.build m a b).srcOperands = [a] := by
  cases m with
  | inc | dec => rfl
  | hlt | ldi | prn | push | pop | call | ret | jmp | jeq | jne => exact nomatch halu
  | add | sub | mul | cmp => exact nomatch hm

end Sys2Proof

namespace Sys2Proof.Machine

/-! ### The ALU -/

/-- The narrowed sum is the machine's addition (42_arithmetic.md R77). -/
theorem narrow_add (a b : Byte) : narrow (a.toNat + b.toNat) = a + b :=
  BitVec.eq_of_toNat_eq (by simp)

theorem narrow_sub (a b : Byte) : narrow (a.toNat + 256 - b.toNat) = a - b := by
  have hb := b.isLt
  refine BitVec.eq_of_toNat_eq ?_
  rw [narrow_toNat, BitVec.toNat_sub]
  congr 1
  omega

theorem narrow_mul (a b : Byte) : narrow (a.toNat * b.toNat) = a * b :=
  BitVec.eq_of_toNat_eq (by simp)

/-- Adding 256 before a byte is taken away changes nothing modulo 256 (42_arithmetic.md R77). -/
theorem narrow_sub_toInt (a b : Byte) :
    ((narrow (a.toNat + 256 - b.toNat)).toNat : Int) = ((a.toNat : Int) - b.toNat) % 256 := by
  have hb := b.isLt
  rw [narrow_toNat]
  omega

/-- Settles O32: the ALU narrows the unbounded result. INC and DEC are the sum and the difference with 1. -/
theorem aluResultsAreModulo256 : Obligations.AluResultsAreModulo256 := by
  intro a b
  refine ⟨⟨narrow_add a b, narrow_toNat _⟩, ⟨narrow_sub a b, narrow_sub_toInt a b⟩, ⟨narrow_mul a b, narrow_toNat _⟩,
    ⟨narrow_add a 1#8, narrow_toNat _⟩, ⟨narrow_sub a 1#8, narrow_sub_toInt a 1#8⟩, fun m hm => ?_⟩
  obtain rfl | rfl | rfl | rfl | rfl : m = .add ∨ m = .sub ∨ m = .mul ∨ m = .inc ∨ m = .dec := by simpa using hm
  all_goals exact ⟨rfl, rfl⟩

/-- A comparison enables no register write. -/
theorem ne_cmp_of_aluDispatch_eq_result {m : Mnemonic} {x y : Byte} {n : Nat} (h : aluDispatch m x y = .result n) :
    m ≠ .cmp := by
  rintro rfl
  exact nomatch congrArg AluOut.resWe h

/-! ### The checks of the register sources -/

section
variable {s : State} {m : Mnemonic} {a b : Byte} {p q : RegIdx}

/-- An ALU instruction moves no SP, so it checks and reads the register that A names before anything else. -/
theorem afterRead_of_isAlu {i : Instr} {l : List Byte} {use : RegIdx → Prop} (halu : i.mnemonic.isAlu = true)
    (hi : i.srcOperands = a :: l) (huse : ∀ r, s.Reads a r → use r) : AfterRead i s a use :=
  afterRead_of_srcOperands hi (fun e => nomatch e ▸ halu) (fun e => nomatch e ▸ halu) huse

theorem aluTwo_eq_badRegister (m : Mnemonic) (hp : s.Reads a p) (hb : 7 < b.toNat) :
    aluTwo m a b s = .error (.badRegister b) :=
  (idx_bind_eq_ok hp.1 _).trans ((State.readReg_bind_eq_ok hp.2 _).trans (State.rd_bind_eq_badRegister hb _))

theorem aluTwo_eq_unwrittenRead (m : Mnemonic) (hp : s.Reads a p) (hq : q.val = b.toNat)
    (hw : s.written.regWritten q = false) : aluTwo m a b s = .error (.unwrittenRead (.reg q)) :=
  (idx_bind_eq_ok hp.1 _).trans ((State.readReg_bind_eq_ok hp.2 _).trans (State.rd_bind_eq_unwrittenRead hq hw _))

theorem exec_build_of_f2rr (hm : m.format = .f2rr) (a b : Byte) (s : State) :
    exec (Instr.build m a b) s = complete m s (aluTwo m a b s) := by
  cases m with
  | add | sub | mul | cmp => rfl
  | _ => exact nomatch hm

/-- The checks of `rd` on the operand A and then on B (00_scope.md R8, 60_exceptions.md R97). -/
theorem afterReads_of_f2rr {use : RegIdx → RegIdx → Prop} (hm : m.format = .f2rr)
    (huse : ∀ p q, s.Reads a p → s.Reads b q → use p q) :
    AfterRead (Instr.build m a b) s a fun p => AfterRead (Instr.build m a b) s b (use p) := by
  have hexec := exec_build_of_f2rr hm a b s
  have halu : (Instr.build m a b).mnemonic.isAlu = true := by simpa using Mnemonic.isAlu_of_f2rr hm
  refine afterRead_of_isAlu halu (Instr.srcOperands_build_of_f2rr hm a b) fun p hp =>
    ⟨fun hb => ?_, fun q hq => ⟨fun hw => ?_, fun hw => huse p q hp ⟨hq, hw⟩⟩⟩
  · rw [StopsBy, hexec, aluTwo_eq_badRegister m hp hb]
    rfl
  · rw [StopsBy, hexec, aluTwo_eq_unwrittenRead m hp hq hw]
    rfl

/-! ### The effect of an arithmetic instruction -/

/-- The writes the ALU enables are what a completed instruction with two register sources leaves (40_cycle.md R63). -/
theorem Completes.writeBack_of_f2rr (hm : m.format = .f2rr) (hp : s.Reads a p) (hq : s.Reads b q) :
    Completes s (Instr.build m a b) (s.writeBack p (aluDispatch m (s.getReg p) (s.getReg q))) := by
  cases m with
  | add => exact .add hp hq
  | sub => exact .sub hp hq
  | mul => exact .mul hp hq
  | cmp => exact .cmp hp hq
  | _ => exact nomatch hm

/-- The writes the ALU enables are what a completed instruction with one register source leaves (40_cycle.md R63). -/
theorem Completes.writeBack_of_f1r (hm : m.format = .f1r) (halu : m.isAlu = true) (b : Byte) (hp : s.Reads a p) :
    Completes s (Instr.build m a b) (s.writeBack p (aluDispatch m (s.getReg p) 0x00#8)) := by
  cases m with
  | inc => exact .inc hp
  | dec => exact .dec hp
  | hlt | ldi | prn | push | pop | call | ret | jmp | jeq | jne => exact nomatch halu
  | add | sub | mul | cmp => exact nomatch hm

/-- A completed ALU instruction whose result is enabled: the result modulo 256 in register `p`, and the frame. -/
theorem Completes.arithmetic_effect {i : Instr} {o : AluOut} {n : Nat} (h : Completes s i (s.writeBack p o))
    (ho : o = .result n) (halu : i.mnemonic.isAlu = true) (hcmp : i.mnemonic ≠ .cmp) (hrun : s.run = .running) :
    ∃ t, exec i s = .next t ∧ (t.getReg p).toNat = n % 256 ∧ t.written.regWritten p = true ∧
      Frame [p] [] s t ∧ FlagsSame s t ∧ OutSame s t ∧ AdvancedOrPastEnd i.mnemonic.len s t := by
  subst ho
  have hu : Completes s i (s.setReg p (narrow n)) := h
  have hprn : i.mnemonic ≠ .prn := fun e => nomatch e ▸ halu
  have hhlt : i ≠ .hlt := by rintro rfl; exact nomatch halu
  refine ⟨_, hu.exec_eq, ?_, ?_, (Frame.setReg s p _).finish _, hu.flagsSame_finish hcmp, hu.outSame_finish hprn,
    hu.advancedOrPastEnd hrun (Mnemonic.setsPc_of_isAlu halu) hhlt⟩
  · simp
  · simp [WrittenBits.regWritten_markReg]

end

/-! ### The instructions -/

/-- A row with two register sources means the function that the ALU computes for it, before the reduction. -/
theorem binaryArithmetic_of_aluDispatch {m : Mnemonic} {f : Nat → Nat → Nat} (hm : m.format = .f2rr)
    (hf : ∀ x y, aluDispatch m x y = .result (f x.toNat y.toNat)) :
    BinaryArithmetic (Instr.build m) (defaultOpcodeMap m) f := by
  intro a b s
  have halu : (Instr.build m a b).mnemonic.isAlu = true := by simpa using Mnemonic.isAlu_of_f2rr hm
  have hcmp : (Instr.build m a b).mnemonic ≠ .cmp := by simpa using ne_cmp_of_aluDispatch_eq_result (hf 0 0)
  have hlen : (Instr.build m a b).mnemonic.len = 3 := by rw [Instr.mnemonic_build, Mnemonic.len, hm]; rfl
  refine ⟨by rw [encode_build, hm]; rfl, fun hrun _ => afterReads_of_f2rr hm fun p q hp hq => ?_⟩
  exact hlen ▸ (Completes.writeBack_of_f2rr hm hp hq).arithmetic_effect (hf _ _) halu hcmp hrun

/-- A row with one register source that the ALU serves, likewise; its two bytes never pass 255. -/
theorem unaryArithmetic_of_aluDispatch {m : Mnemonic} {f : Nat → Nat} (hm : m.format = .f1r) (hm' : m.isAlu = true)
    (hf : ∀ x, aluDispatch m x 0x00#8 = .result (f x.toNat)) :
    UnaryArithmetic (Instr.build m · 0x00#8) (defaultOpcodeMap m) f := by
  intro a s
  have halu : (Instr.build m a 0x00#8).mnemonic.isAlu = true := by simpa using hm'
  have hcmp : (Instr.build m a 0x00#8).mnemonic ≠ .cmp := by simpa using ne_cmp_of_aluDispatch_eq_result (hf 0)
  have hlen : (Instr.build m a 0x00#8).mnemonic.len = 2 := by rw [Instr.mnemonic_build, Mnemonic.len, hm]; rfl
  refine ⟨by rw [encode_build, hm]; rfl, fun hrun hpc =>
    afterRead_of_isAlu halu (Instr.srcOperands_build_of_f1r hm hm' a _) fun p hp => ?_⟩
  obtain ⟨t, ht, hres, hw, hframe, hfl, hout, hadv⟩ :=
    (Completes.writeBack_of_f1r hm hm' 0x00#8 hp).arithmetic_effect (hf _) halu hcmp hrun
  exact ⟨t, ht, hres, hw, hframe, hfl, hout, (hlen ▸ hadv).1 (by omega)⟩

/-- Settles O18: the ALU adds. -/
theorem addIsTheSumModulo256 : Obligations.AddIsTheSumModulo256 :=
  binaryArithmetic_of_aluDispatch (m := .add) rfl fun _ _ => rfl

/-- Settles O19: the ALU subtracts, with 256 added. -/
theorem subIsTheDifferenceModulo256 : Obligations.SubIsTheDifferenceModulo256 :=
  binaryArithmetic_of_aluDispatch (m := .sub) rfl fun _ _ => rfl

/-- Settles O20: the ALU multiplies. -/
theorem mulIsTheProductModulo256 : Obligations.MulIsTheProductModulo256 :=
  binaryArithmetic_of_aluDispatch (m := .mul) rfl fun _ _ => rfl

/-- Settles O21: the ALU adds 1. -/
theorem incAddsOneModulo256 : Obligations.IncAddsOneModulo256 :=
  unaryArithmetic_of_aluDispatch (m := .inc) rfl rfl fun _ => rfl

/-- Settles O22: the ALU adds 255. -/
theorem decTakesOneModulo256 : Obligations.DecTakesOneModulo256 :=
  unaryArithmetic_of_aluDispatch (m := .dec) rfl rfl fun _ => rfl

end Sys2Proof.Machine

/-! ## The comparison

CMP's three relations are those of `compareFlags`, and the branch after it reads the bit E they leave. -/

namespace Sys2Proof.Machine

/-! ### The value of a comparison -/

section
variable {x y : Byte}

theorem compareFlags_of_eq (h : x = y) : compareFlags x y = flagEqual := if_pos h

theorem compareFlags_of_gt (h : y.toNat < x.toNat) : compareFlags x y = flagGreater := by
  have hne : x ≠ y := by rintro rfl; exact Nat.lt_irrefl _ h
  exact (if_neg hne).trans (if_pos h)

theorem compareFlags_of_lt (h : x.toNat < y.toNat) : compareFlags x y = flagLess := by
  have hne : x ≠ y := by rintro rfl; exact Nat.lt_irrefl _ h
  exact (if_neg hne).trans (if_neg (Nat.lt_asymm h))

end

/-- A write of FL touches no register, no byte of memory and no latch. -/
theorem Frame.setFL (s : State) (v : Byte) : Frame [] [] s (s.setFL v) where
  regs _ _ := ⟨rfl, WrittenBits.regWritten_markFL ..⟩
  mem _ _ := rfl
  latches := ⟨rfl, rfl, rfl⟩
  mode := State.setFL_resetMode s v

/-- Settles O23: the checks are those of every instruction with two register sources, and FL is then the comparison of
the two values read, also where the advance passes 255. -/
theorem cmpWritesTheWholeFlagRegister : Obligations.CmpWritesTheWholeFlagRegister := by
  intro a b s
  refine ⟨rfl, fun hrun _ => afterReads_of_f2rr (m := .cmp) rfl fun p q hp hq => ?_⟩
  have hu : Completes s (.cmp a b) (s.setFL (compareFlags (s.getReg p) (s.getReg q))) := .cmp hp hq
  refine ⟨_, hu.exec_eq, fun heq => ?_, fun hgt => ?_, fun hlt => ?_, ?_, (Frame.setFL s _).finish _,
    hu.outSame_finish nofun, hu.advancedOrPastEnd hrun rfl nofun⟩
  · exact (finish_fl ..).trans (compareFlags_of_eq heq)
  · exact (finish_fl ..).trans (compareFlags_of_gt hgt)
  · exact (finish_fl ..).trans (compareFlags_of_lt hlt)
  · simp

/-! ### A branch after a comparison -/

section
variable {s : State} {a : Byte} {r : RegIdx}

/-- A JEQ whose checks pass (44_branch.md R81). -/
theorem exec_jeq_eq (hr : s.Reads a r) (hf : s.written.flWritten = true) :
    exec (.jeq a) s =
      .next (if flagBitE s.fl then s.setPc (s.getReg r) else s.setPc (narrow (s.pcAfter .jeq))) :=
  (Completes.jeq hr hf).exec_eq

/-- A JNE whose checks pass (44_branch.md R82). -/
theorem exec_jne_eq (hr : s.Reads a r) (hf : s.written.flWritten = true) :
    exec (.jne a) s =
      .next (if flagBitE s.fl then s.setPc (narrow (s.pcAfter .jne)) else s.setPc (s.getReg r)) :=
  (Completes.jne hr hf).exec_eq

/-- The write of pc by a branch that is not taken is the advance, where it does not pass 255. -/
theorem State.setPc_pcAfter_advancedBy {m : Mnemonic} (hrun : s.run = .running) (hpc : s.pc.toNat + m.len ≤ 255) :
    AdvancedBy m.len s (s.setPc (narrow (s.pcAfter m))) :=
  ⟨hrun, (narrow_toNat _).trans (Nat.mod_eq_of_lt (Nat.lt_succ_of_le hpc))⟩

end

/-- Settles O33 from O23: only the first of CMP's three values of FL has the bit E, and different values are the other
two. CMP leaves register C, and from pc at most 250 neither advance passes 255. -/
theorem branchAfterCompareFollowsEquality : Obligations.BranchAfterCompareFollowsEquality := by
  intro a b c ra rb rc s ha hb hc hrun hpc hwa hwb hwc
  obtain ⟨-, hcmp⟩ := cmpWritesTheWholeFlagRegister a b s
  obtain ⟨-, hreadB⟩ := ((hcmp hrun (by omega)).2 ra ha).2 hwa
  obtain ⟨t, ht, heq, hgt, hlt, hfl, hframe, -, hend⟩ := (hreadB rb hb).2 hwb
  have hadv : AdvancedBy 3 s t := hend.1 (by omega)
  obtain ⟨hvalC, hwrittenC⟩ := hframe.regs rc (by simp)
  have hrc : t.Reads c rc := ⟨hc, hwrittenC.trans hwc⟩
  have htaken : JumpedTo (s.getReg rc) (t.setPc (t.getReg rc)) := ⟨hadv.1, hvalC⟩
  have hnext (m : Mnemonic) (hlen : m.len = 2) : AdvancedBy 5 s (t.setPc (narrow (t.pcAfter m))) := by
    have hpct : t.pc.toNat + m.len ≤ 255 := by rw [hadv.2]; omega
    exact hadv.trans (hlen ▸ State.setPc_pcAfter_advancedBy hadv.1 hpct)
  refine ⟨t, _, _, ht, exec_jeq_eq hrc hfl, exec_jne_eq hrc hfl, fun h => ?_, fun h => ?_⟩
  · have hE : flagBitE t.fl = true := by rw [heq h]; rfl
    simp only [hE, if_true]
    exact ⟨htaken, hnext .jne rfl⟩
  · have hE : flagBitE t.fl = false := by
      obtain hab | hba := Nat.lt_or_gt_of_ne fun e => h (BitVec.eq_of_toNat_eq e)
      · rw [hlt hab]; rfl
      · rw [hgt hba]; rfl
    simp only [hE, Bool.false_eq_true, if_false]
    exact ⟨hnext .jeq rfl, htaken⟩

end Sys2Proof.Machine

/-! ## The branches

A branch writes pc alone. JEQ and JNE make the same checks, on both paths (44_branch.md R81, R82), and differ in the
value of E on which the register is the target. -/

namespace Sys2Proof.Machine

section
variable {s : State} {i : Instr} {a : Byte} {r : RegIdx}

/-! ### The checks of a conditional branch -/

theorem State.rdFL_bind_eq_error {α : Type} (hf : s.written.flWritten = false) (f : Byte → Except Anomaly α) :
    s.rdFL >>= f = .error (.unwrittenRead .fl) := by
  rw [State.rdFL_eq_error_iff.2 ⟨hf, rfl⟩]; rfl

theorem State.Reads.rd_rdFL_bind_eq_error {α : Type} (hr : s.Reads a r) (hf : s.written.flWritten = false)
    (f : Byte → Byte → Except Anomaly α) : (s.rd a >>= fun v => s.rdFL >>= f v) = .error (.unwrittenRead .fl) :=
  (hr.rd_bind_eq _).trans (State.rdFL_bind_eq_error hf _)

/-- FL is checked after the register, whichever way the branch would go (60_exceptions.md R92, R97). -/
theorem stopsBy_unwrittenFl (hi : i = .jeq a ∨ i = .jne a) (hr : s.Reads a r) (hf : s.written.flWritten = false) :
    StopsBy i s (.unwrittenRead .fl) := by
  obtain rfl | rfl := hi
  all_goals exact congrArg (complete _ s) (hr.rd_rdFL_bind_eq_error hf _)

/-- The checks of `rd` on the register, and then that of `rdFL` (00_scope.md R8). -/
theorem afterRead_of_conditionalBranch {use : RegIdx → Prop} (hi : i = .jeq a ∨ i = .jne a)
    (huse : ∀ r, s.Reads a r → s.written.flWritten = true → use r) :
    AfterRead i s a fun r =>
      (s.written.flWritten = false → StopsBy i s (.unwrittenRead .fl)) ∧ (s.written.flWritten = true → use r) := by
  have hsrc : i.srcOperands = [a] := by obtain rfl | rfl := hi <;> rfl
  have hpush : i.mnemonic ≠ .push := by obtain rfl | rfl := hi <;> nofun
  have hcall : i.mnemonic ≠ .call := by obtain rfl | rfl := hi <;> nofun
  exact afterRead_of_srcOperands hsrc hpush hcall fun r hr => ⟨stopsBy_unwrittenFl hi hr, huse r hr⟩

/-! ### The effect of a branch -/

/-- A write of pc changes nothing else (10_state.md R15). -/
theorem State.setPc_frame (s : State) (t : Byte) :
    Frame [] [] s (s.setPc t) ∧ FlagsSame s (s.setPc t) ∧ OutSame s (s.setPc t) :=
  ⟨⟨fun _ _ => ⟨rfl, rfl⟩, fun _ _ => rfl, ⟨rfl, rfl, rfl⟩, rfl⟩, ⟨rfl, rfl⟩, rfl⟩

/-- What a conditional branch leaves, from what it answers on each of its two paths; the advance by two bytes never
passes 255 from a pc it can be fetched at (40_cycle.md R53). -/
theorem conditionalBranch_effect {m : Mnemonic} {takenOn : Bool} (hlen : m.len = 2) (hrun : s.run = .running)
    (hpc : s.pc.toNat ≤ 253)
    (htaken : flagBitE s.fl = takenOn → exec i s = .next (s.setPc (s.getReg r)))
    (hnext : flagBitE s.fl ≠ takenOn → exec i s = .next (s.setPc (narrow (s.pcAfter m)))) :
    ∃ t, exec i s = .next t ∧
      (flagBitE s.fl = takenOn → JumpedTo (s.getReg r) t) ∧ (flagBitE s.fl ≠ takenOn → AdvancedBy 2 s t) ∧
      Frame [] [] s t ∧ FlagsSame s t ∧ OutSame s t := by
  by_cases hE : flagBitE s.fl = takenOn
  · exact ⟨_, htaken hE, fun _ => ⟨hrun, rfl⟩, fun h => absurd hE h, s.setPc_frame _⟩
  · have hadv : AdvancedBy m.len s (s.setPc (narrow (s.pcAfter m))) :=
      State.setPc_pcAfter_advancedBy hrun (by omega)
    exact ⟨_, hnext hE, fun h => absurd h hE, fun _ => hlen ▸ hadv, s.setPc_frame _⟩

end

/-! ### The instructions -/

/-- Settles O24: what passes the checks of `rd` is written to pc, and the byte may be any, since the handler checks no
range. -/
theorem jmpGoesToTheRegister : Obligations.JmpGoesToTheRegister := by
  intro a s
  refine ⟨rfl, fun hrun _ => afterRead_of_srcOperands rfl nofun nofun fun r hr => ?_⟩
  have hexec : exec (.jmp a) s = .next (s.setPc (s.getReg r)) := (Completes.jmp hr).exec_eq
  exact ⟨_, hexec, ⟨hrun, rfl⟩, s.setPc_frame _⟩

/-- Settles O25: the two paths are those of `exec_jeq_eq`, taken on E set. -/
theorem jeqBranchesOnEqual : Obligations.JeqBranchesOnEqual := by
  intro a s
  refine ⟨rfl, fun hrun hpc => afterRead_of_conditionalBranch (.inl rfl) fun r hr hf => ?_⟩
  refine conditionalBranch_effect (m := .jeq) rfl hrun hpc (fun hE => ?_) fun hE => ?_
  · rw [exec_jeq_eq hr hf, if_pos hE]
  · rw [exec_jeq_eq hr hf, if_neg hE]

/-- Settles O26: the two paths are those of `exec_jne_eq`, taken on E clear. -/
theorem jneBranchesOnNotEqual : Obligations.JneBranchesOnNotEqual := by
  intro a s
  refine ⟨rfl, fun hrun hpc => afterRead_of_conditionalBranch (.inr rfl) fun r hr hf => ?_⟩
  refine conditionalBranch_effect (m := .jne) rfl hrun hpc (fun hE => ?_) fun hE => ?_
  · rw [exec_jne_eq hr hf, if_neg (ne_true_of_eq_false hE)]
  · rw [exec_jne_eq hr hf, if_pos (eq_true_of_ne_false hE)]

end Sys2Proof.Machine

/-! ## Subroutines

A completed CALL is a push of the return address and a write of pc, a completed RET a pop and a write of pc, so their
frames are those of the stack, which a write of pc keeps (`Frame.setPc`). -/

namespace Sys2Proof.Machine

section
variable {s : State} {a : Byte} {r : RegIdx}

/-! ### The checks of CALL and RET -/

/-- CALL checks SP before it reads the register (45_subroutine.md R84, 60_exceptions.md R97). -/
theorem stopsBy_call_spBelowZero (hr : r.val = a.toNat) (hsp : s.sp = 0x00#8) :
    StopsBy (.call a) s (.stackOutOfRange (-1)) := by
  simp only [StopsBy, exec, execCall, State.stackPush, idx_bind_eq_ok hr, State.decSp_bind_eq_error hsp]
  rfl

/-- The push of a CALL that finds its register unwritten is discarded (00_scope.md R9). -/
theorem stopsBy_call_unwrittenRead (hr : r.val = a.toNat) (hsp : 1 ≤ s.sp.toNat)
    (hw : s.written.regWritten r = false) : StopsBy (.call a) s (.unwrittenRead (.reg r)) := by
  have hw' : s.pushed.written.regWritten r = false := (WrittenBits.regWritten_markReg_sp ..).trans hw
  simp only [StopsBy, exec, execCall, State.stackPush, idx_bind_eq_ok hr, State.decSp_bind_eq_ok hsp, pure_bind,
    State.readReg_bind_eq_error (s := s.pushed.writeMem _ _) hw']
  rfl

/-- RET checks SP alone (45_subroutine.md R85, 60_exceptions.md R94). -/
theorem stopsBy_ret_spPastTop (hsp : s.sp = 0xFF#8) : StopsBy .ret s (.stackOutOfRange 256) := by
  simp only [StopsBy, exec, execRet, State.stackPop, State.incSp_eq_error_iff.2 ⟨hsp, rfl⟩]
  rfl

/-! ### Their effects -/

/-- No frame speaks of pc. -/
theorem Frame.setPc {u : State} {dest : List RegIdx} {cells : List Byte} (h : Frame dest cells s u) (t : Byte) :
    Frame dest cells s (u.setPc t) :=
  ⟨h.regs, h.mem, h.latches, h.mode⟩

/-- The return address of a CALL does not wrap at a pc it can be fetched at (40_cycle.md R53). -/
theorem State.returnAddress_toNat (hpc : s.pc.toNat ≤ 253) : (narrow (s.pcAfter .call)).toNat = s.pc.toNat + 2 :=
  (narrow_toNat _).trans (Nat.mod_eq_of_lt (Nat.lt_succ_of_le (Nat.add_le_add_right hpc 2)))

/-- A RET whose check passes, at any pc: the handler does not read it (45_subroutine.md R85). -/
theorem exec_ret_of_sp_lt (hrun : s.run = .running) (hsp : s.sp.toNat < 255) :
    ∃ t, exec .ret s = .next t ∧ JumpedTo (s.readMem s.sp) t ∧ t.sp.toNat = s.sp.toNat + 1 ∧
      Frame [7] [] s t ∧ FlagsSame s t ∧ OutSame s t := by
  have hu : Completes s .ret (s.popped.setPc (s.readMem s.sp)) := .ret hsp
  exact ⟨_, hu.exec_eq, ⟨hrun, rfl⟩, State.popped_sp_toNat hsp, ((Frame.setReg s 7 _).setPc _).finish _,
    hu.flagsSame_finish nofun, hu.outSame_finish nofun⟩

end

/-! ### The instructions -/

/-- Settles O27: the register is read on the working copy with SP decremented, so CALL R7 goes to that SP. The return
address is read back because memory is canonical. -/
theorem callPushesTheReturnAddress : Obligations.CallPushesTheReturnAddress := by
  intro a s
  refine ⟨rfl, fun hrun hpc hmem => ⟨stopsBy_badRegister rfl, fun r hr =>
    ⟨stopsBy_call_spBelowZero hr, fun hsp => ⟨stopsBy_call_unwrittenRead hr hsp, fun hw => ?_⟩⟩⟩⟩
  have hu := Completes.call (s := s) ⟨hr, hw⟩ hsp
  refine ⟨_, hu.exec_eq, State.pushed_sp_toNat hsp, ?_, fun h7 => ⟨hrun, State.pushed_getReg_ne s h7⟩, ?_,
    ((Frame.push hsp _).setPc _).finish _, hu.flagsSame_finish nofun, hu.outSame_finish nofun⟩
  · rw [finish_readMem, State.setPc_readMem, State.push_readMem hsp hmem, State.returnAddress_toNat hpc]
  · rintro rfl
    exact ⟨hrun, State.pushed_sp hsp⟩

/-- Settles O28: SP is the one check, and `exec_ret_of_sp_lt` is what passes it. -/
theorem retPopsTheProgramCounter : Obligations.RetPopsTheProgramCounter :=
  ⟨rfl, fun _ hrun _ => ⟨stopsBy_ret_spPastTop, exec_ret_of_sp_lt hrun⟩⟩

/-- Settles O31 from O27 and `exec_ret_of_sp_lt`, which asks nothing of the CALL's target: the RET reads the return
address at the SP the CALL left, and its increment undoes the decrement, so SP drops out of the frame. -/
theorem callThenRetComesBack : Obligations.CallThenRetComesBack := by
  intro a r s hr hrun hpc hmem hsp hw
  obtain ⟨-, hcall⟩ := callPushesTheReturnAddress a s
  obtain ⟨-, hpushed⟩ := ((hcall hrun hpc hmem).2 r hr).2 hsp
  obtain ⟨t, ht, htsp, hreturn, hother, hsp7, hframe, -, -⟩ := hpushed hw
  have htrun : t.run = .running := by
    by_cases h7 : r = 7
    · exact (hsp7 h7).1
    · exact (hother h7).1
  have htop : t.sp.toNat < 255 := by omega
  obtain ⟨u, hu, ⟨hurun, hupc⟩, husp, hframe', -, -⟩ := exec_ret_of_sp_lt htrun htop
  have hsame : t.sp = s.sp - 1#8 := BitVec.eq_of_toNat_eq (by rw [htsp, BitVec.toNat_sub_of_le hsp]; rfl)
  have hback : u.sp = s.sp := BitVec.eq_of_toNat_eq (by omega)
  have hpcback : u.pc.toNat = s.pc.toNat + 2 := by rw [hupc, hsame, hreturn]
  exact ⟨t, u, ht, hu, ⟨hurun, hpcback⟩, hback, ((hframe.trans hframe').mono (by simp)).of_sp_eq hback⟩

end Sys2Proof.Machine

/-! ## The halt

HLT's handler has no check to fail, so it completes on every state, and what it leaves is no longer Running. -/

namespace Sys2Proof.Machine

/-- The Advance phase leaves a machine that a handler has stopped where it is (40_cycle.md R57). -/
theorem finish_of_run_ne_running (m : Mnemonic) {u : State} (hu : u.run ≠ .running) : finish m u = u := by
  unfold finish
  obtain ⟨-, e⟩ | ⟨hrun, -⟩ | ⟨hrun, -⟩ := u.advance_cases m
  · rw [e, ite_self]
  · exact absurd hrun hu
  · exact absurd hrun hu

/-- Settles O29: HLT completes on every state, and the copy it leaves is Halted, so it does not advance. -/
theorem hltChangesOnlyTheRunState : Obligations.HltChangesOnlyTheRunState := by
  refine ⟨rfl, fun s => ?_⟩
  have hexec : exec .hlt s = .next (finish .hlt (s.setRun .halted)) := Completes.hlt.exec_eq
  have hstays : finish .hlt (s.setRun .halted) = s.setRun .halted := finish_of_run_ne_running .hlt nofun
  rw [hexec, hstays, State.setRun]

end Sys2Proof.Machine

/-! ## Anomalies

`FaultsTo` lists the ways in which a step ends Faulted, each with its cause; `Completes.finish_faulted` is the one that
commits effects (60_exceptions.md R88). The statements about a cause are case analyses of it. -/

namespace Sys2Proof

/-- The register operands of an instruction are operand bytes of it (30_encoding.md R44). -/
theorem Instr.mem_operandBytes_of_reg {i : Instr} {v : Byte} (h : v ∈ i.regOperands) : v ∈ i.operandBytes := by
  cases i with
  | ldi a b =>
    obtain rfl : v = a := by simpa [Instr.regOperands] using h
    exact .head _
  | _ => exact h

/-- A register operand above 7 makes an instruction ill formed (10_state.md R14). -/
theorem Instr.wellFormed_eq_false_of_reg {i : Instr} {v : Byte} (h : v ∈ i.regOperands) (h7 : 7 < v.toNat) :
    i.wellFormed = false := by
  rw [Instr.wellFormed_eq_all, List.all_eq_false]
  exact ⟨v, h, by simpa [regOperandOk] using h7⟩

/-- LDI and POP only write their register, and RET and HLT name none. -/
theorem Instr.mnemonic_of_mem_srcOperands {i : Instr} {v : Byte} (h : v ∈ i.srcOperands) :
    i.mnemonic ∉ [.ldi, .pop, .ret, .hlt] := by
  cases i with
  | ldi | pop | ret | hlt => exact nomatch h
  | _ => simp [Instr.mnemonic]

/-- The rows of three bytes leave pc to the Advance phase (30_encoding.md R41, R51). -/
theorem Mnemonic.setsPc_of_len_three {m : Mnemonic} (h : m.len = 3) : m.setsPc = false := by
  cases m with
  | call | ret | jmp | jeq | jne => exact nomatch h
  | _ => rfl

theorem opcode_of_len_three {m : Mnemonic} (h : m.len = 3) :
    defaultOpcodeMap m ∈ [0x82#8, 0xA0#8, 0xA1#8, 0xA2#8, 0xA7#8] := by
  revert h
  cases m <;> decide

theorem opcode_of_not_mem_ldi_pop_ret_hlt {m : Mnemonic} (h : m ∉ [.ldi, .pop, .ret, .hlt]) :
    defaultOpcodeMap m ∉ [0x82#8, 0x46#8, 0x11#8, 0x01#8] := by
  revert h
  cases m <;> decide

theorem opcode_of_mem_jeq_jne {m : Mnemonic} (h : m ∈ [.jeq, .jne]) :
    defaultOpcodeMap m = 0x55#8 ∨ defaultOpcodeMap m = 0x56#8 := by
  obtain rfl | rfl : m = .jeq ∨ m = .jne := by simpa using h
  · exact .inl rfl
  · exact .inr rfl

end Sys2Proof

namespace Sys2Proof.Machine

/-! ### How a step ends Faulted -/

/-- A completed instruction faults only by an advance of three bytes from pc = 253, over the effects it has committed
(40_cycle.md R57, 60_exceptions.md R95). -/
theorem Completes.finish_faulted {s u : State} {i : Instr} {r : FaultRecord} (h : Completes s i u)
    (hrun : s.run = .running) (hpc : s.pc.toNat ≤ 253) (hr : (finish i.mnemonic u).run = .faulted r) :
    s.pc = 253#8 ∧ i.mnemonic.len = 3 ∧ finish i.mnemonic u = u.raise (.pcOutOfRange 256) := by
  obtain e | ⟨hS, -, hlt, e⟩ := finish_run_cases i.mnemonic u
  · obtain ⟨-, hu⟩ | ⟨-, hu⟩ := h.run_cases <;> simp [e, hu, hrun] at hr
  · have hlen := Mnemonic.len_le_three i.mnemonic
    rw [State.pcAfter_eq, h.pc_eq hS] at hlt e
    have h253 : s.pc.toNat = 253 := by omega
    have hthree : i.mnemonic.len = 3 := by omega
    rw [h253, hthree] at e
    exact ⟨BitVec.eq_of_toNat_eq h253, hthree, e⟩

/-- `FaultsTo s c t`: the ways in which a step of a Running machine takes `s` to `t`, Faulted by the cause `c`
(60_exceptions.md R88 to R95). -/
inductive FaultsTo (s : State) : Anomaly → State → Prop
  | fetchOutOfRange (hpc : 253 < s.pc.toNat) :
      FaultsTo s (.fetchOutOfRange s.pc) (s.raise (.fetchOutOfRange s.pc))
  | illegalOpcode (hpc : s.pc.toNat ≤ 253) (hop : lookupOpcode defaultOpcodeMap (s.readMem s.pc) = none) :
      FaultsTo s (.illegalOpcode (s.readMem s.pc)) (s.latch.raise (.illegalOpcode (s.readMem s.pc)))
  | failsCheck {i c} (hpc : s.pc.toNat ≤ 253)
      (hi : decode (s.readMem s.pc) (s.readMem (s.pc + 1#8)) (s.readMem (s.pc + 2#8)) = .ok i)
      (hc : FailsCheck s.latch i c) : FaultsTo s c (s.latch.raise c)
  | pastEnd {i u} (hi : decode (s.readMem s.pc) (s.readMem (s.pc + 1#8)) (s.readMem (s.pc + 2#8)) = .ok i)
      (hu : Completes s.latch i u) (hpc : s.pc = 253#8) (hlen : i.mnemonic.len = 3) :
      FaultsTo s (.pcOutOfRange 256) (u.raise (.pcOutOfRange 256))

theorem StepTo.faultsTo {s t : State} {r : FaultRecord} (h : StepTo s t) (hrun : s.run = .running)
    (hr : t.run = .faulted r) : FaultsTo s r.cause t := by
  cases h with
  | fetchOutOfRange hpc =>
    obtain rfl := RunState.faulted.inj hr
    exact .fetchOutOfRange hpc
  | illegalOpcode hpc hop =>
    obtain rfl := RunState.faulted.inj hr
    exact .illegalOpcode hpc hop
  | failsCheck hpc hi hc =>
    obtain rfl := RunState.faulted.inj hr
    exact .failsCheck hpc hi hc
  | completes hpc hi hu =>
    obtain ⟨h253, hlen, e⟩ := hu.finish_faulted hrun hpc hr
    rw [e] at hr ⊢
    obtain rfl := RunState.faulted.inj hr
    exact .pastEnd hi hu h253 hlen

theorem faultsTo_of_step {s t : State} {r : FaultRecord} (h : step s = .next t) (hr : t.run = .faulted r) :
    FaultsTo s r.cause t := by
  obtain ⟨hrun, hstep⟩ := stepTo_of_step h
  exact hstep.faultsTo hrun hr

/-- An anomaly leaves pc at its instruction and memory as it was: the three-byte instructions, which alone have
committed their effects, write neither (60_exceptions.md R88). -/
theorem FaultsTo.pc_mem_eq {s t : State} {c : Anomaly} (h : FaultsTo s c t) : t.pc = s.pc ∧ t.mem = s.mem := by
  cases h with
  | fetchOutOfRange | illegalOpcode | failsCheck => exact ⟨rfl, rfl⟩
  | pastEnd _ hu _ hlen => exact ⟨hu.pc_eq (Mnemonic.setsPc_of_len_three hlen), hu.mem_of_len_three hlen⟩

/-- Every cause but PcOutOfRange discards the working copy (00_scope.md R9, 60_exceptions.md R88). -/
theorem FaultsTo.nothing_committed {s t : State} {c : Anomaly} (h : FaultsTo s c t) (hc : ∀ n, c ≠ .pcOutOfRange n) :
    t.regs = s.regs ∧ t.fl = s.fl ∧ t.mem = s.mem ∧ t.out = s.out ∧ t.written = s.written := by
  cases h with
  | fetchOutOfRange | illegalOpcode | failsCheck => exact ⟨rfl, rfl, rfl, rfl, rfl⟩
  | pastEnd => exact absurd rfl (hc 256)

/-- Settles O12: the record fits the state it is in, whose pc and memory are those before the step. -/
theorem anAnomalyCommitsNothing : Obligations.AnAnomalyCommitsNothing := by
  intro s t r h hr
  obtain ⟨hrun, hstep⟩ := stepTo_of_step h
  have hfault := hstep.faultsTo hrun hr
  obtain ⟨hpc, hmem⟩ := hfault.pc_mem_eq
  obtain ⟨hfpc, hfop, -⟩ := hstep.recordLegal hrun r hr
  refine ⟨hfpc.trans hpc, ?_, hpc, hfault.nothing_committed⟩
  rw [hfop, State.readMem, hpc, hmem]
  rfl

/-! ### BadRegister -/

theorem regOperandOk_of_val {r : RegIdx} {a : Byte} (hr : r.val = a.toNat) : regOperandOk a = true := by
  have hlt := r.isLt
  exact decide_eq_true (by omega)

/-- A handler passes its checks only where every register operand names a register (10_state.md R14). -/
theorem Completes.wellFormed {s u : State} {i : Instr} (h : Completes s i u) : i.wellFormed = true := by
  cases h with
  | hlt | ret => rfl
  | ldi hr | pop hr => exact regOperandOk_of_val hr
  | prn hr | push hr | call hr | inc hr | dec hr | jmp hr | jeq hr | jne hr => exact regOperandOk_of_val hr.1
  | add hp hq | sub hp hq | mul hp hq | cmp hp hq =>
    exact Bool.and_eq_true_iff.2 ⟨regOperandOk_of_val hp.1, regOperandOk_of_val hq.1⟩

/-- A BadRegister is raised by the check of an operand above 7 (60_exceptions.md R91). -/
theorem FailsCheck.badRegister_operand {s : State} {i : Instr} {v : Byte} (h : FailsCheck s i (.badRegister v)) :
    v ∈ i.operandBytes ∧ 7 < v.toNat ∧ i.wellFormed = false := by
  cases h with
  | badRegister hv h7 => exact ⟨Instr.mem_operandBytes_of_reg hv, h7, Instr.wellFormed_eq_false_of_reg hv h7⟩

/-- Settles O38: a check that fails names the operand, and a handler that completes had none above 7. -/
theorem badRegisterIsForOperandsAboveSeven : Obligations.BadRegisterIsForOperandsAboveSeven := by
  intro i s t hrun hpc h
  obtain ⟨c, hc, rfl⟩ | ⟨u, hu, rfl⟩ := exec_eq_next_cases h
  · refine ⟨fun r v hr hv => ?_, fun _ => ⟨_, rfl⟩⟩
    obtain rfl := RunState.faulted.inj hr
    obtain rfl : c = .badRegister v := hv
    exact hc.badRegister_operand
  · refine ⟨fun r v hr hv => ?_, fun hill => ?_⟩
    · obtain ⟨-, -, e⟩ := hu.finish_faulted hrun hpc hr
      rw [e] at hr
      obtain rfl := RunState.faulted.inj hr
      exact nomatch hv
    · rw [hu.wellFormed] at hill
      exact nomatch hill

/-! ### UnwrittenRead -/

/-- A clear bit exists under RESET_MODE = Unwritten only (00_scope.md R6, 10_state.md R22). -/
theorem Anomaly.resetMode_of_legalIn_unwrittenRead {s : State} {what : UnwrittenName} {fop : Byte}
    (h : (Anomaly.unwrittenRead what).legalIn s fop) : s.resetMode = .unwritten := by
  cases hw : s.written with
  | present => simp [State.resetMode, hw]
  | absent => cases what <;> simp [Anomaly.legalIn, hw, WrittenBits.regWritten, WrittenBits.flWritten] at h

/-- An UnwrittenRead is raised by an instruction that reads a register (60_exceptions.md R92). -/
theorem FailsCheck.mnemonic_of_unwrittenRead {s : State} {i : Instr} {what : UnwrittenName}
    (h : FailsCheck s i (.unwrittenRead what)) : i.mnemonic ∉ [.ldi, .pop, .ret, .hlt] := by
  cases h with
  | unwrittenReg hv => exact Instr.mnemonic_of_mem_srcOperands hv
  | unwrittenFl hi =>
    obtain e | e : i.mnemonic = .jeq ∨ i.mnemonic = .jne := by simpa using hi
    · simp [e]
    · simp [e]

/-- FL is read by JEQ and JNE alone (44_branch.md R81, R82). -/
theorem FailsCheck.mnemonic_of_unwrittenFl {s : State} {i : Instr} (h : FailsCheck s i (.unwrittenRead .fl)) :
    i.mnemonic ∈ [.jeq, .jne] := by
  cases h with
  | unwrittenFl hi => exact hi

/-- Settles O39: of the ways to fault only a failing check raises UnwrittenRead, and its info is one the cause can
have. -/
theorem unwrittenReadNeedsAClearBit : Obligations.UnwrittenReadNeedsAClearBit := by
  intro s t r what h hr hcause
  have hfault := faultsTo_of_step h hr
  rw [hcause] at hfault
  cases hfault with
  | failsCheck _ hi hc =>
    have hlegal : (Anomaly.unwrittenRead what).legalIn s r.fop := hc.legalIn r.fop
    rw [← (opcode_of_decode hi).1]
    refine ⟨Anomaly.resetMode_of_legalIn_unwrittenRead hlegal,
      opcode_of_not_mem_ldi_pop_ret_hlt hc.mnemonic_of_unwrittenRead, ?_, ?_⟩
    · rintro q rfl
      exact hlegal
    · rintro rfl
      exact ⟨hlegal, opcode_of_mem_jeq_jne hc.mnemonic_of_unwrittenFl⟩

/-! ### StackOutOfRange -/

/-- SP after a register write is as it stood, or what was written where the register is R7 (10_state.md R12). -/
theorem State.setReg_sp_eq_cases {s : State} {r : RegIdx} {v x : Byte} (h : (s.setReg r v).sp = x) :
    s.sp = x ∨ r = 7 ∧ v = x := by
  by_cases h7 : r = 7
  · subst h7
    rw [State.sp_setReg_sp] at h
    exact .inr ⟨rfl, h⟩
  · rw [State.sp_setReg_ne s v h7] at h
    exact .inl h

/-- Settles O40: of the ways to fault only the checks of SP raise StackOutOfRange. -/
theorem stackOutOfRangeOnlyAtTheEnds : Obligations.StackOutOfRangeOnlyAtTheEnds := by
  intro s t r k h hr hcause
  have hfault := faultsTo_of_step h hr
  rw [hcause] at hfault
  cases hfault with
  | failsCheck _ hi hc =>
    obtain ⟨hop, hbuild⟩ := opcode_of_decode hi
    cases hc with
    | spBelowZero hmn hzero => exact .inl ⟨rfl, hop ▸ opcode_of_mem_push_call hmn, hzero⟩
    | retPastTop htop => exact .inr ⟨rfl, .inr hop.symm, .inl htop⟩
    | popPastTop hreg htop =>
      refine .inr ⟨rfl, .inl hop.symm, ?_⟩
      obtain hsp | ⟨rfl, hbyte⟩ := State.setReg_sp_eq_cases htop
      · exact .inl hsp
      · obtain rfl := Instr.pop.inj hbuild
        exact .inr ⟨hop.symm, BitVec.eq_of_toNat_eq hreg.symm, hbyte⟩

/-! ### PcOutOfRange -/

/-- Settles O41: of the ways to fault only the advance past the end raises PcOutOfRange. -/
theorem pcOutOfRangeOnlyForThreeBytesAt253 : Obligations.PcOutOfRangeOnlyForThreeBytesAt253 := by
  intro s t r n h hr hcause
  have hfault := faultsTo_of_step h hr
  rw [hcause] at hfault
  have hpc := hfault.pc_mem_eq.1
  cases hfault with
  | failsCheck _ _ hc => exact nomatch hc
  | pastEnd hi _ h253 hlen => exact ⟨rfl, h253, hpc.trans h253, (opcode_of_decode hi).1 ▸ opcode_of_len_three hlen⟩

/-! ### FetchOutOfRange and IllegalOpcode -/

/-- Settles O8: the window check comes before the latches and the decoder. -/
theorem fetchPastTheEndFaults : Obligations.FetchPastTheEndFaults :=
  fun _ hrun hpc => ⟨step_eq_next_iff.2 ⟨hrun, .inl ⟨hpc, rfl⟩⟩, rfl⟩

/-- Settles O9: a byte outside the table is looked up in vain. -/
theorem illegalOpcodeFaults : Obligations.IllegalOpcodeFaults := by
  intro s hrun hpc hir
  have hnone : lookupOpcode defaultOpcodeMap (s.readMem s.pc) = none :=
    lookupOpcode_eq_none_iff.2 fun m hm => hir (mem_tableOpcodes_iff.2 ⟨m, hm⟩)
  exact ⟨⟨_, step_eq_next_iff.2 ⟨hrun, .inr (.inl ⟨hpc, hnone, rfl⟩)⟩, rfl, rfl, rfl, rfl, rfl, rfl, rfl⟩, rfl⟩

end Sys2Proof.Machine

/-! ## Reset with an image -/

namespace Sys2Proof.Machine

/-! ### What a loaded image reads as -/

/-- A load touches no address below where it starts. -/
theorem Memory.readCell_load_of_lt {m : Memory} {n q : Nat} {image : List Byte} (hq : q < n) :
    Memory.readCell (Memory.load m n image) q = Memory.readCell m q := by
  induction image generalizing m n with
  | nil => rfl
  | cons v image ih => exact (ih (Nat.lt_succ_of_lt hq)).trans (Memory.readCell_writeCell_ne v m (Nat.ne_of_lt hq))

/-- From where a load starts memory reads as the image, and beyond the image as before. -/
theorem Memory.readCell_load_add {m : Memory} {n : Nat} {image : List Byte} (k : Nat) (hm : Memory.wf m = true)
    (hlen : n + image.length ≤ 256) :
    Memory.readCell (Memory.load m n image) (n + k) = image.getD k (Memory.readCell m (n + k)) := by
  induction image generalizing m n k with
  | nil => rfl
  | cons v image ih =>
    rw [List.length_cons] at hlen
    have hwrite : Memory.wf (Memory.writeCell m n v) = true := Memory.writeCell_wf v hm (by omega)
    cases k with
    | zero => exact (Memory.readCell_load_of_lt (Nat.lt_succ_self n)).trans (Memory.readCell_writeCell_self n v hm)
    | succ k =>
      have hq : n + (k + 1) = n + 1 + k := by omega
      have hne : n + 1 + k ≠ n := by omega
      rw [hq, List.getD_cons_succ, ← Memory.readCell_writeCell_ne v m hne]
      exact ih k hwrite (by omega)

/-- A load from address 0 into empty memory (70_reset_and_hazards.md R108). -/
theorem Memory.readCell_load_nil {image : List Byte} (hlen : image.length ≤ 256) (q : Nat) :
    Memory.readCell (Memory.load [] 0 image) q = image.getD q 0x00#8 := by
  have hread := Memory.readCell_load_add (n := 0) q Memory.wf_nil (by rwa [Nat.zero_add])
  rwa [Nat.zero_add] at hread

/-! ### The registers and the written bits after reset -/

theorem WrittenBits.regWritten_atReset_unwritten {q : RegIdx} (hq : q ≠ 7) :
    (WrittenBits.atReset .unwritten).regWritten q = false := by
  have hlt : q.val < 7 := Fin.val_lt_last hq
  simp [WrittenBits.atReset, WrittenBits.regWritten, hlt]

@[simp] theorem State.resetIn_resetMode (mode : Config.ResetMode) : (State.resetIn mode).resetMode = mode := by
  cases mode with
  | _ => rfl

theorem State.resetIn_getReg (mode : Config.ResetMode) {q : RegIdx} (hq : q ≠ 7) :
    (State.resetIn mode).getReg q = 0x00#8 := by
  have hne : 7 ≠ q.val := (Fin.val_lt_last hq).ne'
  simp [State.resetIn, State.getReg, Vector.getElem_set_ne, hne]

/-! ### The boot -/

theorem boot_of_length_le {mode : Config.ResetMode} {image : List Byte} (hlen : image.length ≤ 256) :
    boot mode image = .next { State.resetIn mode with mem := Memory.load [] 0 image } :=
  if_pos hlen

theorem boot_of_lt_length {mode : Config.ResetMode} {image : List Byte} (hlen : 256 < image.length) :
    boot mode image = .refused (.imageTooLarge image.length) :=
  if_neg (Nat.not_le_of_gt hlen)

/-- Settles O47: the loaded image is all that a boot adds to the reset state. -/
theorem bootPlacesTheImage : Obligations.BootPlacesTheImage := by
  intro mode image
  refine ⟨fun hlen => ⟨_, boot_of_length_le hlen, fun p => Memory.readCell_load_nil hlen p.toNat, rfl, rfl, rfl, rfl,
    State.resetIn_resetMode mode, ?_, ?_⟩, boot_of_lt_length⟩
  · rintro rfl
    exact ⟨rfl, rfl, fun q hq => ⟨State.resetIn_getReg .zero hq, rfl⟩⟩
  · rintro rfl
    exact ⟨rfl, fun q hq => WrittenBits.regWritten_atReset_unwritten hq⟩

end Sys2Proof.Machine

/-! ## The rows of the default table -/

namespace Sys2Proof

/-- The opcode byte of each row of 30_encoding.md R41 decodes to that row's instruction. -/
theorem decode_defaultOpcodeMap (m : Mnemonic) (a b : Byte) :
    decode (defaultOpcodeMap m) a b = .ok (Instr.build m a b) := by
  cases m with
  | _ => rfl

/-- Settles O6: each window is the opcode byte of a row and two bytes, of which the instruction keeps what its format
uses. -/
theorem writtenOutWordsDecode : Obligations.WrittenOutWordsDecode :=
  ⟨decode_defaultOpcodeMap .ldi 0 8, decode_defaultOpcodeMap .add 0 1, decode_defaultOpcodeMap .prn 0 1,
    decode_defaultOpcodeMap .hlt 0 0, decode_defaultOpcodeMap .cmp 0 1, decode_defaultOpcodeMap .jne 2 1,
    decode_defaultOpcodeMap .call 1 0x47, decode_defaultOpcodeMap .ret 0 0, decode_defaultOpcodeMap .push 0 0x46⟩

end Sys2Proof
